-- ==== Sys2Proof/Word.lean ====
section
/-! DEFINITION. The two sizes of data the hardware has (spec/00_scope.md R7): a 32-bit word and an 8-bit byte. -/

namespace Sys2Proof

/-- A word: a 32-bit unsigned value (R7). -/
abbrev Word := BitVec 32

/-- A byte: an 8-bit unsigned value (R7). -/
abbrev Byte := BitVec 8

end Sys2Proof
end

