-- ==== Sys2Proof/Config.lean ====
section
/-! DEFINITION. The OPEN parameters of spec/00_scope.md R6 and spec/93_implementation_defined.md section 1. None has a body, so a
claim that mentions one holds for every value. No rule of the spec, and no definition of the step, reads them. -/

namespace Sys2Proof.Config

/-- `BASE`: the address of the register window in the host's address space. OPEN, with no constraint. -/
opaque base : Nat

/-- One less than `LAT_COMPRESS`; free, so that `latCompress` is any integer of at least 1. -/
opaque latCompressLessOne : Nat

/-- One less than `LAT_ENCODE`; free, so that `latEncode` is any integer of at least 1. -/
opaque latEncodeLessOne : Nat

/-- `LAT_COMPRESS`: cycles from a COMPRESS issue to its completion, an integer of at least 1. OPEN. -/
def latCompress : Nat := latCompressLessOne + 1

/-- `LAT_ENCODE`: cycles from a valid ENCODE issue to its completion, an integer of at least 1. OPEN. -/
def latEncode : Nat := latEncodeLessOne + 1

end Sys2Proof.Config
end

