-- ==== Sys2Proof/Syntax.lean ====
section
/-! DEFINITION. What the host can ask of the engine: the raw item it puts on the bus, the instruction a raw item stands for (one
constructor per row of spec/opcode_table.json), and the two results the spec's own decoders give (R84, R88). -/

namespace Sys2Proof

/-- What the host puts on the bus, in the two forms of R80, still encoded. -/
inductive HostItem where
  /-- C form: the command word written to CMD (R80, R81). -/
  | command (w : Word)
  /-- B form: the table's 12-bit access key `kind << 11 | size << 8 | off`, with the data word (R62, R88). Only a write uses the data. -/
  | access (key : BitVec 12) (data : Word)
  deriving DecidableEq, Repr

/-- The kind of an access together with the data, which only a write carries (R62). -/
inductive Xfer where
  | read
  | write (data : Word)
  deriving DecidableEq, Repr

/-- The result of the spec's `Decode` of a command word (R84). -/
inductive Command where
  | illegal
  | nop
  | init
  | compress
  | clrErr
  /-- ENCODE with any FMT; FMT 2..15 is unrecognised (R83). -/
  | encode (fmt : BitVec 4)
  deriving DecidableEq, Repr

/-- The result of the spec's `DecodeAccess` (R88). -/
inductive Target where
  | bad
  | cmd
  | status
  | id
  | msg (i : Fin 16)
  | hash (j : Fin 8)
  | out (n : Fin 16)
  deriving DecidableEq, Repr

/-- The instructions: one constructor per row of spec/opcode_table.json, in the table's order. -/
inductive Instr where
  /-- NOP (R121). -/
  | nop
  /-- INIT (R122). -/
  | init
  /-- COMPRESS (R145). -/
  | compress
  /-- ENCODE with FMT 0 (R165). -/
  | encodeHex
  /-- ENCODE with FMT 1 (R165). -/
  | encodeB64
  /-- ENCODE with an unrecognised FMT, 2..15 (R83, R165). -/
  | encodeBadFmt (fmt : BitVec 4)
  /-- CLRERR (R123). -/
  | clrErr
  /-- A command word that decodes to ILLEGAL, by its three fields (R81, R85). -/
  | illegal (op : BitVec 4) (fmt : BitVec 4) (rsv : BitVec 24)
  /-- An access of one byte (R192). -/
  | badSize1 (x : Xfer) (off : BitVec 8)
  /-- An access of two bytes (R192). -/
  | badSize2 (x : Xfer) (off : BitVec 8)
  /-- A four-byte access at an odd offset (R192). -/
  | badAlign1 (x : Xfer) (off : BitVec 8)
  /-- A four-byte access with `off[1:0] = 0b10` (R192). -/
  | badAlign2 (x : Xfer) (off : BitVec 8)
  /-- Write CMD: the access that carries a command word (R182). -/
  | wrCmd (w : Word)
  /-- Read CMD (R185). -/
  | rdCmd
  /-- Read STATUS (R186). -/
  | rdStatus
  /-- Write STATUS, a read-only register (R184). -/
  | wrStatus (v : Word)
  /-- Read ID (R187). -/
  | rdId
  /-- Write ID, a read-only register (R184). -/
  | wrId (v : Word)
  /-- An access of offset 0x0C, unmapped (R191). -/
  | unmapped0C (x : Xfer)
  /-- An access of an aligned offset in 0x10..0x1C, unmapped (R191). -/
  | unmapped10 (x : Xfer) (off : BitVec 8)
  /-- An access of an aligned offset in 0x20..0x3C, unmapped (R191). -/
  | unmapped20 (x : Xfer) (off : BitVec 8)
  /-- Write MSG[i] (R183). -/
  | wrMsg (i : Fin 16) (v : Word)
  /-- Read MSG[i] (R188). -/
  | rdMsg (i : Fin 16)
  /-- Read HASH[j] (R189). -/
  | rdHash (j : Fin 8)
  /-- Write HASH[j], a read-only register (R184). -/
  | wrHash (j : Fin 8) (v : Word)
  /-- An access of an aligned offset in 0xA0..0xBC, unmapped (R191). -/
  | unmappedA0 (x : Xfer) (off : BitVec 8)
  /-- Read OUT[n] (R190). -/
  | rdOut (n : Fin 16)
  /-- Write OUT[n], a read-only register (R184). -/
  | wrOut (n : Fin 16) (v : Word)
  deriving DecidableEq, Repr

end Sys2Proof
end

