-- ==== Sys2Proof/WellFormed.lean ====
section
/-! DEFINITION. The operand checks that the types of Syntax.lean do not already make: which field values belong to which row of
spec/opcode_table.json. -/

namespace Sys2Proof

/-- The field values each row admits. Rows that are not named admit every value of their operands. -/
def Instr.wellFormed : Instr → Bool
  | .encodeBadFmt fmt => decide (2#4 ≤ fmt)                      -- R83: FMT 2..15
  | .illegal op fmt rsv =>                                       -- R85, its three cases
      decide (rsv ≠ 0#24) || decide (5#4 ≤ op) || (decide (op ≠ 3#4) && decide (fmt ≠ 0#4))
  | .badAlign1 _ off => off.getLsbD 0                            -- R192: off[0] = 1
  | .badAlign2 _ off => decide (off &&& 0x03#8 = 0x02#8)         -- R192: off[1:0] = 0b10
  | .unmapped10 _ off => decide (off &&& 0xF3#8 = 0x10#8)        -- R61, R191: 0x10, 0x14, 0x18, 0x1C
  | .unmapped20 _ off => decide (off &&& 0xE3#8 = 0x20#8)        -- R61, R191: 0x20, 0x24, .., 0x3C
  | .unmappedA0 _ off => decide (off &&& 0xE3#8 = 0xA0#8)        -- R61, R191: 0xA0, 0xA4, .., 0xBC
  | .nop | .init | .compress | .encodeHex | .encodeB64 | .clrErr
  | .badSize1 _ _ | .badSize2 _ _ | .wrCmd _ | .rdCmd | .rdStatus | .wrStatus _ | .rdId | .wrId _
  | .unmapped0C _ | .wrMsg _ _ | .rdMsg _ | .rdHash _ | .wrHash _ _ | .rdOut _ | .wrOut _ _ => true

end Sys2Proof
end

