-- ==== Sys2Proof/Decode.lean ====
section
/-! DEFINITION. Decoding and encoding (spec/30_encoding.md). `decodeCmd` and `decodeAccess` are the spec's own `Decode` (R84) and
`DecodeAccess` (R88). `decode` reads a raw host item by the rows of spec/opcode_table.json, tried in order; it is total, and rejects
by name the access sizes the table has no row for. `encode` is written from the same tables. -/

namespace Sys2Proof

/-- `Decode` (R84), on all 2^32 words, in the rule's order. -/
def decodeCmd (w : Word) : Command :=
  let op := w.extractLsb' 0 4
  let fmt := w.extractLsb' 4 4
  let rsv := w.extractLsb' 8 24
  if rsv ≠ 0#24 then .illegal
  else if op = 0x3#4 then .encode fmt
  else if fmt ≠ 0#4 then .illegal
  else if op = 0x0#4 then .nop
  else if op = 0x1#4 then .init
  else if op = 0x2#4 then .compress
  else if op = 0x4#4 then .clrErr
  else .illegal

/-- The index a register offset stands for: `(off - base) >> 2` (R87). -/
def regIndex (base off : BitVec 8) : Nat := ((off - base) >>> 2).toNat

/-- `DecodeAccess` (R88), on every offset and every 3-bit size, in the rule's order. The kind plays no part in it. -/
def decodeAccess (off : BitVec 8) (size : BitVec 3) : Target :=
  if size ≠ 4#3 ∨ off.extractLsb' 0 2 ≠ 0#2 then .bad
  else if off = 0x00#8 then .cmd
  else if off = 0x04#8 then .status
  else if off = 0x08#8 then .id
  else if 0x40#8 ≤ off ∧ off ≤ 0x7C#8 then .msg (Fin.ofNat 16 (regIndex 0x40#8 off))
  else if 0x80#8 ≤ off ∧ off ≤ 0x9C#8 then .hash (Fin.ofNat 8 (regIndex 0x80#8 off))
  else if 0xC0#8 ≤ off ∧ off ≤ 0xFC#8 then .out (Fin.ofNat 16 (regIndex 0xC0#8 off))
  else .bad

/-- Why a raw item stands for no row of the table. -/
inductive DecodeReject where
  /-- The access size in the key is none of 1, 2, 4, so R62 knows no such access and the table has no row for it. The step still
  gives such an item the effect of R88 and R192 (log 6). -/
  | sizeNotInTable (size : BitVec 3)
  deriving DecidableEq, Repr

/-- The C rows of the table, in order; the first match wins. -/
def decodeCommandRow (w : Word) : Instr :=
  if w = 0x00000000#32 then .nop
  else if w = 0x00000001#32 then .init
  else if w = 0x00000002#32 then .compress
  else if w = 0x00000003#32 then .encodeHex
  else if w = 0x00000013#32 then .encodeB64
  else if w &&& 0xFFFFFF0F#32 = 0x00000003#32 then .encodeBadFmt (w.extractLsb' 4 4)
  else if w = 0x00000004#32 then .clrErr
  else .illegal (w.extractLsb' 0 4) (w.extractLsb' 4 4) (w.extractLsb' 8 24)

/-- The fields of an access key: kind (bit 11), size (10:8), off (7:0). -/
def keyIsWrite (key : BitVec 12) : Bool := key.getLsbD 11
def keySize (key : BitVec 12) : BitVec 3 := key.extractLsb' 8 3
def keyOff (key : BitVec 12) : BitVec 8 := key.extractLsb' 0 8

/-- The transfer an access key and its data word stand for; a read carries no data (R62, log 10). -/
def xferOf (key : BitVec 12) (data : Word) : Xfer :=
  if keyIsWrite key then .write data else .read

/-- The B rows of the table, in order; the first match wins. -/
def decodeAccessRow (key : BitVec 12) (data : Word) : Except DecodeReject Instr :=
  let x := xferOf key data
  let off := keyOff key
  if key &&& 0x700#12 = 0x100#12 then .ok (.badSize1 x off)
  else if key &&& 0x700#12 = 0x200#12 then .ok (.badSize2 x off)
  else if key &&& 0x701#12 = 0x401#12 then .ok (.badAlign1 x off)
  else if key &&& 0x703#12 = 0x402#12 then .ok (.badAlign2 x off)
  else if key = 0xC00#12 then .ok (.wrCmd data)
  else if key = 0x400#12 then .ok .rdCmd
  else if key = 0x404#12 then .ok .rdStatus
  else if key = 0xC04#12 then .ok (.wrStatus data)
  else if key = 0x408#12 then .ok .rdId
  else if key = 0xC08#12 then .ok (.wrId data)
  else if key &&& 0x7FF#12 = 0x40C#12 then .ok (.unmapped0C x)
  else if key &&& 0x7F3#12 = 0x410#12 then .ok (.unmapped10 x off)
  else if key &&& 0x7E3#12 = 0x420#12 then .ok (.unmapped20 x off)
  else if key &&& 0xFC3#12 = 0xC40#12 then .ok (.wrMsg (Fin.ofNat 16 (regIndex 0x40#8 off)) data)
  else if key &&& 0xFC3#12 = 0x440#12 then .ok (.rdMsg (Fin.ofNat 16 (regIndex 0x40#8 off)))
  else if key &&& 0xFE3#12 = 0x480#12 then .ok (.rdHash (Fin.ofNat 8 (regIndex 0x80#8 off)))
  else if key &&& 0xFE3#12 = 0xC80#12 then .ok (.wrHash (Fin.ofNat 8 (regIndex 0x80#8 off)) data)
  else if key &&& 0x7E3#12 = 0x4A0#12 then .ok (.unmappedA0 x off)
  else if key &&& 0xFC3#12 = 0x4C0#12 then .ok (.rdOut (Fin.ofNat 16 (regIndex 0xC0#8 off)))
  else if key &&& 0xFC3#12 = 0xCC0#12 then .ok (.wrOut (Fin.ofNat 16 (regIndex 0xC0#8 off)) data)
  else .error (.sizeNotInTable (keySize key))

/-- The instruction a raw host item stands for; total, and rejecting by name. -/
def decode : HostItem → Except DecodeReject Instr
  | .command w => .ok (decodeCommandRow w)
  | .access key data => decodeAccessRow key data

/-- A 12-bit access key from its fields, `kind << 11 | size << 8 | off`. -/
def accessKey (write : Bool) (size : BitVec 3) (off : BitVec 8) : BitVec 12 :=
  BitVec.ofBool write ++ size ++ off

/-- The raw access of a transfer; a read's data word is 0. -/
def encodeXfer (x : Xfer) (size : BitVec 3) (off : BitVec 8) : HostItem :=
  match x with
  | .read => .access (accessKey false size off) 0#32
  | .write data => .access (accessKey true size off) data

/-- The offsets of the indexed registers (R61). -/
def msgOff (i : Fin 16) : BitVec 8 := BitVec.ofNat 8 (0x40 + 4 * i.val)
def hashOff (j : Fin 8) : BitVec 8 := BitVec.ofNat 8 (0x80 + 4 * j.val)
def outOff (n : Fin 16) : BitVec 8 := BitVec.ofNat 8 (0xC0 + 4 * n.val)

/-- The raw host item of an instruction, from the layouts of R61, R81 and R88. -/
def encode : Instr → HostItem
  | .nop => .command 0x00000000#32
  | .init => .command 0x00000001#32
  | .compress => .command 0x00000002#32
  | .encodeHex => .command 0x00000003#32
  | .encodeB64 => .command 0x00000013#32
  | .encodeBadFmt fmt => .command (0#24 ++ fmt ++ 0x3#4)
  | .clrErr => .command 0x00000004#32
  | .illegal op fmt rsv => .command (rsv ++ fmt ++ op)
  | .badSize1 x off => encodeXfer x 1#3 off
  | .badSize2 x off => encodeXfer x 2#3 off
  | .badAlign1 x off => encodeXfer x 4#3 off
  | .badAlign2 x off => encodeXfer x 4#3 off
  | .wrCmd w => encodeXfer (.write w) 4#3 0x00#8
  | .rdCmd => encodeXfer .read 4#3 0x00#8
  | .rdStatus => encodeXfer .read 4#3 0x04#8
  | .wrStatus v => encodeXfer (.write v) 4#3 0x04#8
  | .rdId => encodeXfer .read 4#3 0x08#8
  | .wrId v => encodeXfer (.write v) 4#3 0x08#8
  | .unmapped0C x => encodeXfer x 4#3 0x0C#8
  | .unmapped10 x off => encodeXfer x 4#3 off
  | .unmapped20 x off => encodeXfer x 4#3 off
  | .wrMsg i v => encodeXfer (.write v) 4#3 (msgOff i)
  | .rdMsg i => encodeXfer .read 4#3 (msgOff i)
  | .rdHash j => encodeXfer .read 4#3 (hashOff j)
  | .wrHash j v => encodeXfer (.write v) 4#3 (hashOff j)
  | .unmappedA0 x off => encodeXfer x 4#3 off
  | .rdOut n => encodeXfer .read 4#3 (outOff n)
  | .wrOut n v => encodeXfer (.write v) 4#3 (outOff n)

/-- The raw item whose bits are `w`, numbered as the table numbers them: a row of up to 16 bits is a B row, whose bits 11:0 are the
access key (bits 15:12 are no part of it) and whose data word is 0; a longer row is a C row, whose bits 31:0 are the command word
(log 9). -/
def itemOfTableWord (nbits w : Nat) : HostItem :=
  if nbits ≤ 16 then .access (BitVec.ofNat 12 w) 0#32 else .command (BitVec.ofNat 32 w)

/-- The instruction the decoder reads from a table word (the host's check). -/
def decodeTableWord (nbits w : Nat) : Option Instr :=
  match decode (itemOfTableWord nbits w) with
  | .ok i => some i
  | .error _ => none

end Sys2Proof
end

