-- ==== Sys2Proof/Machine/State.lean ====
section
/-! DEFINITION. The state of one SHA256-CE (spec/10_state.md R20), the events still to come and the words the host has read (the
model's own fields, log 1 and log 2), the reasons a step can stop (none), and the state after reset (R36). -/

namespace Sys2Proof.Machine

/-- The pending operation PEND (R30). -/
inductive Pending where
  | none
  | compress
  | encodeHex
  | encodeB64
  deriving DecidableEq, Repr

/-- One step of the total order of R69, with RESET (R240) as the third event of R5. -/
inductive Event where
  /-- The host puts one item on the bus. -/
  | host (item : HostItem)
  /-- The ENGINE agent gets its turn; it has a step only while an operation is pending (R126). -/
  | engine
  /-- RESET, from outside. -/
  | reset
  deriving DecidableEq, Repr

/-- One read the host has made: the offset and the size it asked for, and the word it got (R208). -/
structure ReadRecord where
  off : BitVec 8
  size : BitVec 3
  value : Word
  deriving DecidableEq, Repr

structure State where
  /-- `H[0..7]`, the hash state (R21). -/
  h : Vector Word 8
  /-- `MSG[0..15]`, the message block buffer (R22). -/
  msg : Vector Word 16
  /-- `OUTB[0..63]`, the output character buffer (R23). -/
  outb : Vector Byte 64
  /-- `OUTLEN`, the number of valid characters (R24). -/
  outlen : BitVec 8
  /-- `PEND`, the pending operation (R30). -/
  pend : Pending
  /-- `ERR_ADDR` (R26, R27). -/
  errAddr : Bool
  /-- `ERR_BUSY` (R26, R27). -/
  errBusy : Bool
  /-- `ERR_CMD` (R26, R27). -/
  errCmd : Bool
  /-- `ERR_FMT` (R26, R27). -/
  errFmt : Bool
  /-- The words the host's reads returned, oldest first (R208). The model's own field (log 2). -/
  reads : List ReadRecord
  /-- The events still to come, next first: the total order of R69 as plain data. The model's own field (log 1). -/
  events : List Event
  deriving DecidableEq, Repr

/-- Why the machine could stop with a fault. It has no constructor: no error of this hardware stops it (R220), and no rule gives an
undefined effect. -/
inductive Fault where
  deriving DecidableEq, Repr

/-- Why a step could have no meaning. -/
inductive Refusal where
  /-- Raised only by an arm of `exec` whose instruction has no meaning yet; safe. No arm of this model raises it. -/
  | notModelled (mnemonic : String)
  deriving DecidableEq, Repr

/-- The machine right after reset, every element at the value of R36. The two fields of the model's own are empty (log 1, log 2). -/
def State.reset : State where
  h := iv
  msg := Vector.replicate 16 0#32
  outb := Vector.replicate 64 0#8
  outlen := 0#8
  pend := .none
  errAddr := false
  errBusy := false
  errCmd := false
  errFmt := false
  reads := []
  events := []

end Sys2Proof.Machine
end

