-- ==== Sys2Proof/Machine/Operands.lean ====
section
/-! DEFINITION. Operand forms: the big-endian packing of byte streams in words (spec/20_memory.md R64), the words the host sees at the
indexed registers (R22, R23), and host addresses (R60). -/

namespace Sys2Proof.Machine

/-- Four stream bytes as one word, the first in the most significant byte (R64). -/
def packBE (b0 b1 b2 b3 : Byte) : Word := b0 ++ b1 ++ b2 ++ b3

/-- Byte `m` of a word, `word[31-8m : 24-8m]` for `m` in 0..3 (R64). -/
def byteBE (w : Word) (m : Nat) : Byte := w.extractLsb' (24 - 8 * m) 8

/-- `OUT[n] = OUTB[4n] ++ OUTB[4n+1] ++ OUTB[4n+2] ++ OUTB[4n+3]` (R23, R190). -/
def outWord (outb : Vector Byte 64) (n : Fin 16) : Word :=
  packBE (outb[4 * n.val]'(by omega)) (outb[4 * n.val + 1]'(by omega)) (outb[4 * n.val + 2]'(by omega))
    (outb[4 * n.val + 3]'(by omega))

/-- The host address of a window offset, `BASE + off` (R60). No rule of the engine reads it. -/
def hostAddress (off : BitVec 8) : Nat := Config.base + off.toNat

end Sys2Proof.Machine
end

