-- ==== Sys2Proof/Machine/Flags.lean ====
section
/-! DEFINITION. The STATUS word (spec/10_state.md R26), raising an error flag (spec/00_scope.md R11, spec/60_exceptions.md R220) and
clearing the flags (spec/41_control.md R123). Raising is this hardware's only kind of exception, clearing its only return (R225). -/

namespace Sys2Proof.Machine

/-- The four error causes, in the order of their STATUS bits 1 to 4 (R221). -/
inductive ErrFlag where
  | addr
  | busy
  | cmd
  | fmt
  deriving DecidableEq, Repr

/-- BUSY: 1 when PEND is not NONE (R26). -/
def State.busy (s : State) : Bool := decide (s.pend ≠ .none)

/-- One error flag of the state. -/
def State.flag (s : State) : ErrFlag → Bool
  | .addr => s.errAddr
  | .busy => s.errBusy
  | .cmd => s.errCmd
  | .fmt => s.errFmt

/-- STATUS as a read returns it: `OUTLEN ++ 000 ++ ERR_FMT ++ ERR_CMD ++ ERR_BUSY ++ ERR_ADDR ++ BUSY`, zero-extended (R26). -/
def State.status (s : State) : Word :=
  0#16 ++ s.outlen ++ 0#3 ++ BitVec.ofBool s.errFmt ++ BitVec.ofBool s.errCmd ++ BitVec.ofBool s.errBusy
    ++ BitVec.ofBool s.errAddr ++ BitVec.ofBool s.busy

/-- `raise ERR_X`: set that one flag to 1; a flag already 1 stays 1, and nothing else changes (R11, R27, R220). -/
def State.raise (e : ErrFlag) (s : State) : State :=
  { s with
    errAddr := s.errAddr || decide (e = .addr)
    errBusy := s.errBusy || decide (e = .busy)
    errCmd := s.errCmd || decide (e = .cmd)
    errFmt := s.errFmt || decide (e = .fmt) }

/-- `ClrErr()`: the four error flags to 0 (R123). -/
def State.clearErrors (s : State) : State :=
  { s with errAddr := false, errBusy := false, errCmd := false, errFmt := false }

end Sys2Proof.Machine
end

