-- ==== Sys2Proof/Machine/Ops.lean ====
section
/-! DEFINITION. The named operations on the state that the meanings share: the clearing action (R25), the BUSY gate (R120, R180,
R181), what a host read leaves (R181, R208), the malformed access (R180, R181), the issue of a deferred command (R124) and RESET
(R240). The exception of this hardware, `raise`, and its return stand in Flags.lean. -/

namespace Sys2Proof.Machine

/-- `ClearOut()`: OUTB to 0x00, OUTLEN to 0 (R25). -/
def State.clearOut (s : State) : State :=
  { s with outb := Vector.replicate 64 0#8, outlen := 0#8 }

/-- `H[j] <- IV[j]` for every j (R122). -/
def State.loadIv (s : State) : State := { s with h := iv }

/-- `PEND <- p` (R30). -/
def State.setPend (p : Pending) (s : State) : State := { s with pend := p }

/-- `MSG[i] <- v` (R183). -/
def State.setMsg (i : Fin 16) (v : Word) (s : State) : State := { s with msg := s.msg.set i.val v }

/-- A host read of `size` bytes at `off` has returned `v` (R208). -/
def State.record (off : BitVec 8) (size : BitVec 3) (v : Word) (s : State) : State :=
  { s with reads := s.reads ++ [{ off := off, size := size, value := v }] }

/-- The BUSY gate: while an operation is pending the command or write is dropped and ERR_BUSY is raised (R120, R180). -/
def whenIdle (f : State → State) (s : State) : State :=
  if s.pend ≠ .none then s.raise .busy else f s

/-- A read that returns `v` and has no other effect. -/
def readValue (off : BitVec 8) (v : Word) (s : State) : State := s.record off 4#3 v

/-- A read of MSG, HASH or OUT: `v` while idle; while an operation is pending it returns 0 and raises ERR_BUSY (R181). -/
def readWhenIdle (off : BitVec 8) (v : Word) (s : State) : State :=
  if s.pend ≠ .none then (s.raise .busy).record off 4#3 0#32 else s.record off 4#3 v

/-- A malformed or unmapped access: ERR_ADDR; a read returns 0, a write has no effect, whether or not BUSY is 1 (R191, R192). -/
def badAccess (x : Xfer) (size : BitVec 3) (off : BitVec 8) (s : State) : State :=
  match x with
  | .read => (s.raise .addr).record off size 0#32
  | .write _ => s.raise .addr

/-- A write to a read-only register: ERR_ADDR, nothing else, even when BUSY is 1 (R184). -/
def readOnlyWrite (s : State) : State := s.raise .addr

/-- `Reset()`: every element of R20 to its value of R36. The host's record and the events to come are not the engine's. -/
def State.applyReset (s : State) : State := { State.reset with reads := s.reads, events := s.events }

end Sys2Proof.Machine
end

