-- ==== Sys2Proof/Machine/Primitives.lean ====
section
/-! DEFINITION. Word arithmetic and bit functions (spec/40_primitives.md). Addition of words is `+` of `BitVec 32`, which wraps modulo
2^32 (R100); `>>>` is the logical right shift (R102); `^^^`, `&&&`, `|||`, `~~~` are the bitwise operators (R103). -/

namespace Sys2Proof.Machine

/-- The 32-bit right rotation, for `1 ≤ n ≤ 31` (R101). -/
def rotr (x : Word) (n : Nat) : Word := (x >>> n) ||| (x <<< (32 - n))

/-- σ0 (R104). -/
def smallSigma0 (x : Word) : Word := rotr x 7 ^^^ rotr x 18 ^^^ (x >>> 3)

/-- σ1 (R105). -/
def smallSigma1 (x : Word) : Word := rotr x 17 ^^^ rotr x 19 ^^^ (x >>> 10)

/-- Σ0, `S0` in the source (R106). -/
def bigSigma0 (a : Word) : Word := rotr a 2 ^^^ rotr a 13 ^^^ rotr a 22

/-- Σ1, `S1` in the source (R107). -/
def bigSigma1 (e : Word) : Word := rotr e 6 ^^^ rotr e 11 ^^^ rotr e 25

/-- Ch (R108). -/
def ch (e f g : Word) : Word := (e &&& f) ^^^ (~~~e &&& g)

/-- Maj (R109). -/
def maj (a b c : Word) : Word := (a &&& b) ^^^ (a &&& c) ^^^ (b &&& c)

end Sys2Proof.Machine
end

