-- ==== Sys2Proof/Machine/Compress.lean ====
section
/-! DEFINITION. COMPRESS (spec/42_compress.md): the schedule expander, the round mixer, the hash-state update, and the instruction. -/

namespace Sys2Proof.Machine

/-- The next schedule word, `W[t] = W[t-16] + σ0(W[t-15]) + W[t-7] + σ1(W[t-2])`, where `t` is the number of words so far (R141). -/
def scheduleNext (w : List Word) : Word :=
  w.getD (w.length - 16) 0#32 + smallSigma0 (w.getD (w.length - 15) 0#32) + w.getD (w.length - 7) 0#32
    + smallSigma1 (w.getD (w.length - 2) 0#32)

/-- `n` more schedule words. -/
def scheduleExtend : Nat → List Word → List Word
  | 0, w => w
  | n + 1, w => scheduleExtend n (w ++ [scheduleNext w])

/-- `Schedule(MSG)`: `W[0..15]` is the block (R140), `W[16..63]` follow (R141). -/
def schedule (msg : Vector Word 16) : List Word := scheduleExtend 48 msg.toList

/-- The working registers (R33). -/
structure Regs where
  a : Word
  b : Word
  c : Word
  d : Word
  e : Word
  f : Word
  g : Word
  h : Word
  deriving DecidableEq, Repr

/-- Seeding from the hash state (R142). -/
def seed (h : Vector Word 8) : Regs := ⟨h[0], h[1], h[2], h[3], h[4], h[5], h[6], h[7]⟩

/-- One round with its constant `k` and schedule word `w` (R143). Every value on the right is that of the start of the round. -/
def round (k w : Word) (r : Regs) : Regs :=
  let s1 := bigSigma1 r.e
  let c := ch r.e r.f r.g
  let t1 := r.h + s1 + c + k + w
  let s0 := bigSigma0 r.a
  let m := maj r.a r.b r.c
  let t2 := s0 + m
  { h := r.g, g := r.f, f := r.e, e := r.d + t1, d := r.c, c := r.b, b := r.a, a := t1 + t2 }

/-- The rounds in order, round `i` with `K[i]` and `W[i]` (R143). -/
def mix : List Word → List Word → Regs → Regs
  | k :: ks, w :: ws, r => mix ks ws (round k w r)
  | _, _, r => r

/-- `Rounds(a..h, W)`: the 64 rounds (R143). -/
def rounds (w : List Word) (r : Regs) : Regs := mix kRom w r

/-- `Compress(H, MSG)` (R144). Irreducible, so that no proof about a state unfolds 64 rounds by accident; cite or unfold it by name. -/
@[irreducible] def compress (h : Vector Word 8) (msg : Vector Word 16) : Vector Word 8 :=
  let r := rounds (schedule msg) (seed h)
  #v[h[0] + r.a, h[1] + r.b, h[2] + r.c, h[3] + r.d, h[4] + r.e, h[5] + r.f, h[6] + r.g, h[7] + r.h]

/-- `CompressIssue()` (R145). -/
def compressIssue (s : State) : State := s.setPend .compress

/-- `CompressComplete()`: H takes the compressed value, MSG stays, the output is cleared (R145). -/
def compressComplete (s : State) : State := { s with h := compress s.h s.msg }.clearOut

/-- COMPRESS (R120, R145). -/
def execCompress (s : State) : Host.Outcome State Fault Refusal := .next (whenIdle compressIssue s)

end Sys2Proof.Machine
end

