-- ==== Sys2Proof/Machine/Encode.lean ====
section
/-! DEFINITION. The digest serializer and ENCODE (spec/43_digest_output.md). -/

namespace Sys2Proof.Machine

/-- `Serialize(H)`: `D[k] = H[k >> 2][31 - 8*(k mod 4) : 24 - 8*(k mod 4)]` (R160). -/
def serialize (h : Vector Word 8) : Vector Byte 32 :=
  Vector.ofFn fun k : Fin 32 => byteBE (h[k.val / 4]'(by omega)) (k.val % 4)

/-- `HexChar` (R162). -/
def hexChar (n : BitVec 4) : Byte :=
  if n ≤ 9#4 then 0x30#8 + n.zeroExtend 8 else 0x61#8 + (n.zeroExtend 8 - 10#8)

/-- `EncHex`: two characters a byte, the most significant nibble first (R161). -/
def encHex (d : Vector Byte 32) : Vector Byte 64 :=
  Vector.ofFn fun p : Fin 64 =>
    let b := d[p.val / 2]'(by omega)
    if p.val % 2 = 0 then hexChar (b.extractLsb' 4 4) else hexChar (b.extractLsb' 0 4)

/-- `B64Char` (R164). -/
def b64Char (s : BitVec 6) : Byte :=
  if s ≤ 25#6 then 0x41#8 + s.zeroExtend 8
  else if s ≤ 51#6 then 0x61#8 + (s.zeroExtend 8 - 26#8)
  else if s ≤ 61#6 then 0x30#8 + (s.zeroExtend 8 - 52#8)
  else if s = 62#6 then 0x2B#8
  else 0x2F#8

/-- The pad character `=` (R164). -/
def b64Pad : Byte := 0x3D#8

/-- Sextet `m` of three bytes read as 24 bits, most significant sextet first (R163). -/
def sextet (b0 b1 b2 : Byte) (m : Nat) : BitVec 6 := (b0 ++ b1 ++ b2).extractLsb' (18 - 6 * m) 6

/-- `EncB64`: ten groups of three bytes, then two bytes and two zero bits, then `=` (R163). -/
def encB64 (d : Vector Byte 32) : Vector Byte 44 :=
  Vector.ofFn fun p : Fin 44 =>
    if hp : p.val < 40 then
      b64Char (sextet (d[3 * (p.val / 4)]'(by omega)) (d[3 * (p.val / 4) + 1]'(by omega))
        (d[3 * (p.val / 4) + 2]'(by omega)) (p.val % 4))
    else if p.val < 43 then
      b64Char ((d[30] ++ d[31] ++ 0#2).extractLsb' (12 - 6 * (p.val - 40)) 6)
    else b64Pad

/-- The output buffer that holds the characters `c`, zero past the last one (R165). -/
def fillOut (c : List Byte) : Vector Byte 64 := Vector.ofFn fun k : Fin 64 => c.getD k.val 0#8

/-- OUTB after a hex ENCODE of `h` (irreducible, as `compress` is). -/
@[irreducible] def hexOutput (h : Vector Word 8) : Vector Byte 64 := fillOut (encHex (serialize h)).toList

/-- OUTB after a Base64 ENCODE of `h` (irreducible, as `compress` is). -/
@[irreducible] def b64Output (h : Vector Word 8) : Vector Byte 64 := fillOut (encB64 (serialize h)).toList

/-- `EncodeComplete(HEX)` (R165). -/
def encodeHexComplete (s : State) : State := { s with outb := hexOutput s.h, outlen := 64#8 }

/-- `EncodeComplete(B64)` (R165). -/
def encodeB64Complete (s : State) : State := { s with outb := b64Output s.h, outlen := 44#8 }

/-- `EncodeIssue(fmt)`: format 0 and 1 set PEND; any other clears the output and raises ERR_FMT (R165, log 7). -/
def encodeIssue (fmt : BitVec 4) (s : State) : State :=
  if fmt = 0#4 then s.setPend .encodeHex
  else if fmt = 1#4 then s.setPend .encodeB64
  else s.clearOut.raise .fmt

/-- ENCODE hex (R120, R165). -/
def execEncodeHex (s : State) : Host.Outcome State Fault Refusal := .next (whenIdle (encodeIssue 0#4) s)

/-- ENCODE base64 (R120, R165). -/
def execEncodeB64 (s : State) : Host.Outcome State Fault Refusal := .next (whenIdle (encodeIssue 1#4) s)

/-- ENCODE with an unrecognised format (R120, R165). -/
def execEncodeBadFmt (fmt : BitVec 4) (s : State) : Host.Outcome State Fault Refusal :=
  .next (whenIdle (encodeIssue fmt) s)

end Sys2Proof.Machine
end

