-- ==== Sys2Proof/Machine/Control.lean ====
section
/-! DEFINITION. Command dispatch and the immediate control commands (spec/41_control.md). -/

namespace Sys2Proof.Machine

/-- `Init()` (R122). -/
def initState (s : State) : State := s.loadIv.clearOut

/-- What an accepted command does in its write step: the `case` of R120. -/
def perform : Command → State → State
  | .illegal, s => s.raise .cmd
  | .nop, s => s
  | .init, s => initState s
  | .clrErr, s => s.clearErrors
  | .compress, s => compressIssue s
  | .encode fmt, s => encodeIssue fmt s

/-- `CmdWrite(w)`: ERR_BUSY first, then the word is decoded and performed (R120). -/
def cmdWrite (w : Word) (s : State) : State := whenIdle (perform (decodeCmd w)) s

/-- NOP (R121). -/
def execNop (s : State) : Host.Outcome State Fault Refusal := .next (whenIdle (fun t => t) s)

/-- INIT (R122). -/
def execInit (s : State) : Host.Outcome State Fault Refusal := .next (whenIdle initState s)

/-- CLRERR (R123). -/
def execClrErr (s : State) : Host.Outcome State Fault Refusal := .next (whenIdle State.clearErrors s)

/-- A command word that decodes to ILLEGAL: ERR_CMD, no other effect, whatever its fields (R85, R120). -/
def execIllegal (_op _fmt : BitVec 4) (_rsv : BitVec 24) (s : State) : Host.Outcome State Fault Refusal :=
  .next (whenIdle (State.raise .cmd) s)

end Sys2Proof.Machine
end

