-- ==== Sys2Proof/Machine/Bus.lean ====
section
/-! DEFINITION. Host register reads and writes (spec/44_bus_access.md): one meaning for each B row of the table, and `busWrite`,
`busRead`, the general rules R180 and R181 themselves, which the step uses for the accesses the table has no row for and which the
rows are stated to agree with. -/

namespace Sys2Proof.Machine

/-- `BusWrite(off, size, v)` (R180). -/
def busWrite (off : BitVec 8) (size : BitVec 3) (v : Word) (s : State) : State :=
  match decodeAccess off size with
  | .bad | .status | .id | .hash _ | .out _ => s.raise .addr
  | .cmd => whenIdle (cmdWrite v) s
  | .msg i => whenIdle (State.setMsg i v) s

/-- `BusRead(off, size)` (R181): the word returned and the state after. -/
def busRead (off : BitVec 8) (size : BitVec 3) (s : State) : Word × State :=
  match decodeAccess off size with
  | .bad => (0#32, s.raise .addr)
  | .cmd => (0#32, s)
  | .status => (s.status, s)
  | .id => (idValue, s)
  | .msg i => if s.pend ≠ .none then (0#32, s.raise .busy) else (s.msg[i.val], s)
  | .hash j => if s.pend ≠ .none then (0#32, s.raise .busy) else (s.h[j.val], s)
  | .out n => if s.pend ≠ .none then (0#32, s.raise .busy) else (outWord s.outb n, s)

/-- A host access by R180 or R181; a read leaves the word it returned in the host's record. -/
def busAccess (x : Xfer) (size : BitVec 3) (off : BitVec 8) (s : State) : State :=
  match x with
  | .write v => busWrite off size v s
  | .read => (busRead off size s).2.record off size (busRead off size s).1

/-- BAD.SIZE1 (R192). -/
def execBadSize1 (x : Xfer) (off : BitVec 8) (s : State) : Host.Outcome State Fault Refusal := .next (badAccess x 1#3 off s)

/-- BAD.SIZE2 (R192). -/
def execBadSize2 (x : Xfer) (off : BitVec 8) (s : State) : Host.Outcome State Fault Refusal := .next (badAccess x 2#3 off s)

/-- BAD.ALIGN1 (R192). -/
def execBadAlign1 (x : Xfer) (off : BitVec 8) (s : State) : Host.Outcome State Fault Refusal := .next (badAccess x 4#3 off s)

/-- BAD.ALIGN2 (R192). -/
def execBadAlign2 (x : Xfer) (off : BitVec 8) (s : State) : Host.Outcome State Fault Refusal := .next (badAccess x 4#3 off s)

/-- WR.CMD: the command word it carries is dispatched by R120 (R182). -/
def execWrCmd (w : Word) (s : State) : Host.Outcome State Fault Refusal := .next (cmdWrite w s)

/-- RD.CMD: 0, at any time (R185). -/
def execRdCmd (s : State) : Host.Outcome State Fault Refusal := .next (readValue 0x00#8 0#32 s)

/-- RD.STATUS: the flags as they stood before the read, at any time (R186). -/
def execRdStatus (s : State) : Host.Outcome State Fault Refusal := .next (readValue 0x04#8 s.status s)

/-- WR.STATUS (R184). -/
def execWrStatus (_v : Word) (s : State) : Host.Outcome State Fault Refusal := .next (readOnlyWrite s)

/-- RD.ID, at any time (R187). -/
def execRdId (s : State) : Host.Outcome State Fault Refusal := .next (readValue 0x08#8 idValue s)

/-- WR.ID (R184). -/
def execWrId (_v : Word) (s : State) : Host.Outcome State Fault Refusal := .next (readOnlyWrite s)

/-- UNMAPPED.0C (R191). -/
def execUnmapped0C (x : Xfer) (s : State) : Host.Outcome State Fault Refusal := .next (badAccess x 4#3 0x0C#8 s)

/-- UNMAPPED.10 (R191). -/
def execUnmapped10 (x : Xfer) (off : BitVec 8) (s : State) : Host.Outcome State Fault Refusal := .next (badAccess x 4#3 off s)

/-- UNMAPPED.20 (R191). -/
def execUnmapped20 (x : Xfer) (off : BitVec 8) (s : State) : Host.Outcome State Fault Refusal := .next (badAccess x 4#3 off s)

/-- WR.MSG (R183). -/
def execWrMsg (i : Fin 16) (v : Word) (s : State) : Host.Outcome State Fault Refusal := .next (whenIdle (State.setMsg i v) s)

/-- RD.MSG (R188). -/
def execRdMsg (i : Fin 16) (s : State) : Host.Outcome State Fault Refusal :=
  .next (readWhenIdle (msgOff i) s.msg[i.val] s)

/-- RD.HASH (R189). -/
def execRdHash (j : Fin 8) (s : State) : Host.Outcome State Fault Refusal :=
  .next (readWhenIdle (hashOff j) s.h[j.val] s)

/-- WR.HASH: the host can never write H (R184). -/
def execWrHash (_j : Fin 8) (_v : Word) (s : State) : Host.Outcome State Fault Refusal := .next (readOnlyWrite s)

/-- UNMAPPED.A0 (R191). -/
def execUnmappedA0 (x : Xfer) (off : BitVec 8) (s : State) : Host.Outcome State Fault Refusal := .next (badAccess x 4#3 off s)

/-- RD.OUT (R190). -/
def execRdOut (n : Fin 16) (s : State) : Host.Outcome State Fault Refusal :=
  .next (readWhenIdle (outOff n) (outWord s.outb n) s)

/-- WR.OUT (R184). -/
def execWrOut (_n : Fin 16) (_v : Word) (s : State) : Host.Outcome State Fault Refusal := .next (readOnlyWrite s)

end Sys2Proof.Machine
end

