-- ==== Sys2Proof/Machine/Dispatch.lean ====
section
/-! DEFINITION. Which meaning each instruction has: one arm per constructor of `Instr`, in the order of spec/opcode_table.json. -/

namespace Sys2Proof.Machine

def exec (i : Instr) (s : State) : Host.Outcome State Fault Refusal :=
  match i with
  | .nop => Sys2Proof.Machine.execNop s
  | .init => Sys2Proof.Machine.execInit s
  | .compress => Sys2Proof.Machine.execCompress s
  | .encodeHex => Sys2Proof.Machine.execEncodeHex s
  | .encodeB64 => Sys2Proof.Machine.execEncodeB64 s
  | .encodeBadFmt fmt => Sys2Proof.Machine.execEncodeBadFmt fmt s
  | .clrErr => Sys2Proof.Machine.execClrErr s
  | .illegal op fmt rsv => Sys2Proof.Machine.execIllegal op fmt rsv s
  | .badSize1 x off => Sys2Proof.Machine.execBadSize1 x off s
  | .badSize2 x off => Sys2Proof.Machine.execBadSize2 x off s
  | .badAlign1 x off => Sys2Proof.Machine.execBadAlign1 x off s
  | .badAlign2 x off => Sys2Proof.Machine.execBadAlign2 x off s
  | .wrCmd w => Sys2Proof.Machine.execWrCmd w s
  | .rdCmd => Sys2Proof.Machine.execRdCmd s
  | .rdStatus => Sys2Proof.Machine.execRdStatus s
  | .wrStatus v => Sys2Proof.Machine.execWrStatus v s
  | .rdId => Sys2Proof.Machine.execRdId s
  | .wrId v => Sys2Proof.Machine.execWrId v s
  | .unmapped0C x => Sys2Proof.Machine.execUnmapped0C x s
  | .unmapped10 x off => Sys2Proof.Machine.execUnmapped10 x off s
  | .unmapped20 x off => Sys2Proof.Machine.execUnmapped20 x off s
  | .wrMsg k v => Sys2Proof.Machine.execWrMsg k v s
  | .rdMsg k => Sys2Proof.Machine.execRdMsg k s
  | .rdHash j => Sys2Proof.Machine.execRdHash j s
  | .wrHash j v => Sys2Proof.Machine.execWrHash j v s
  | .unmappedA0 x off => Sys2Proof.Machine.execUnmappedA0 x off s
  | .rdOut n => Sys2Proof.Machine.execRdOut n s
  | .wrOut n v => Sys2Proof.Machine.execWrOut n v s

end Sys2Proof.Machine
end

