-- ==== Sys2Proof/Machine/Engine.lean ====
section
/-! DEFINITION. The steps of the three agents (spec/00_scope.md R5): ENGINE (spec/41_control.md R126), HOST (R80, R180, R181) and RESET
(spec/70_reset_and_hazards.md R240). -/

namespace Sys2Proof.Machine

/-- `EngineStep()`: the whole pending operation, then PEND becomes NONE (R126). With nothing pending the ENGINE has no step and the
state stays (R126, R232, log 3). -/
def engineStep (s : State) : State :=
  match s.pend with
  | .none => s
  | .compress => (compressComplete s).setPend .none
  | .encodeHex => (encodeHexComplete s).setPend .none
  | .encodeB64 => (encodeB64Complete s).setPend .none

/-- One HOST step: the item on the bus is decoded by the table and performed. An access whose size the table has no row for is
performed by the general rules R180 and R181, which call it BAD (R88, R192, log 6). -/
def hostStep (item : HostItem) (s : State) : Host.Outcome State Fault Refusal :=
  match decode item, item with
  | .ok i, _ => exec i s
  | .error _, .access key data => .next (busAccess (xferOf key data) (keySize key) (keyOff key) s)
  | .error _, .command w => .next (cmdWrite w s)

/-- The step of one event of the total order (R69). -/
def eventStep (e : Event) (s : State) : Host.Outcome State Fault Refusal :=
  match e with
  | .host item => hostStep item s
  | .engine => .next (engineStep s)
  | .reset => .next s.applyReset

end Sys2Proof.Machine
end

