-- ==== Sys2Proof/Machine/Step.lean ====
section
/-! DEFINITION. One step of the machine: the next event of the total order (spec/20_memory.md R69). When the host has made its last
access, a pending operation completes, as the weak fairness of spec/70_reset_and_hazards.md R247 says, and an idle engine keeps its
state (spec/60_exceptions.md R232, log 3). -/

namespace Sys2Proof.Machine

/-- One step. The event is taken off `events` before it is performed. -/
def step (s : State) : Host.Outcome State Fault Refusal :=
  match s.events with
  | [] => .next (engineStep s)
  | e :: es => eventStep e { s with events := es }

/-- `s` with the instruction of a table word as the next event, so that the very next step performs it (log 9). -/
def State.withFetchWord (s : State) (nbits w : Nat) : State :=
  { s with events := .host (itemOfTableWord nbits w) :: s.events }

end Sys2Proof.Machine
end

