-- ==== Sys2Proof/Machine/HostProtocol.lean ====
section
/-! DEFINITION. The host's duties and the end-to-end digest (spec/45_host_protocol.md): padding, blocks, the digest procedure as the
sequence of the host's accesses, and what the host makes of the words it reads. The step reads none of this: the engine checks no
duty of the host (R204). -/

namespace Sys2Proof.Machine

/-- `BE64(x)`: the 8 bytes of `x`, most significant first (R201). -/
def be64 (x : Nat) : List Byte := (List.range 8).map fun k => BitVec.ofNat 8 (x >>> (56 - 8 * k))

/-- `Z = (55 - L) mod 64`, the number of zero bytes of the padding (R201). -/
def padZeros (len : Nat) : Nat := ((55 - (len : Int)) % 64).toNat

/-- `Pad(M)` (R201). -/
def pad (m : List Byte) : List Byte :=
  m ++ [0x80#8] ++ List.replicate (padZeros m.length) 0#8 ++ be64 (8 * m.length)

/-- The host's `InputTooLarge` condition, `L ≥ 2^61` bytes (R202). -/
def inputTooLarge (m : List Byte) : Bool := decide (2 ^ 61 ≤ m.length)

/-- Word `i` of block `b` of the padded message `p` (R203). -/
def blockWord (p : List Byte) (b i : Nat) : Word :=
  packBE (p.getD (64 * b + 4 * i) 0#8) (p.getD (64 * b + 4 * i + 1) 0#8) (p.getD (64 * b + 4 * i + 2) 0#8)
    (p.getD (64 * b + 4 * i + 3) 0#8)

/-- Block `b` of the padded message, as the 16 words of MSG (R203). -/
def block (p : List Byte) (b : Nat) : Vector Word 16 := Vector.ofFn fun i : Fin 16 => blockWord p b i.val

/-- The blocks of a message in order (R203). -/
def blocks (m : List Byte) : List (Vector Word 16) := (List.range ((pad m).length / 64)).map (block (pad m))

/-- `SHA256(M) = Serialize(fold(Compress, IV, blocks))` (R205). -/
def sha256 (m : List Byte) : Vector Byte 32 := serialize ((blocks m).foldl compress iv)

/-- The format code of a host's format tag (R206); any other tag the host refuses or sends as FMT 2..15. -/
def formatCode (tag : String) : Option (BitVec 4) :=
  if tag = "hex" then some 0#4 else if tag = "base64" then some 1#4 else none

/-- `ldblk`: the 16 writes of a block, in index order (R90, R204 step 4). -/
def loadBlock (b : Vector Word 16) : List Event :=
  (List.finRange 16).map fun i => .host (encode (.wrMsg i b[i.val]))

/-- `wait` (R90) around one ENGINE step: `polls` STATUS reads that still see BUSY, the ENGINE step, and the STATUS read that sees
BUSY = 0. -/
def waitEvents (polls : Nat) : List Event :=
  List.replicate polls (.host (encode .rdStatus)) ++ [.engine, .host (encode .rdStatus)]

/-- Steps 4, 5 and the following wait of the digest procedure, for one block (R204). -/
def blockEvents (polls : Nat) (b : Vector Word 16) : List Event :=
  loadBlock b ++ [.host (encode .compress)] ++ waitEvents polls

/-- Steps 2 to 6 for a list of blocks; block number `k` sees `polls k` busy polls (R204). -/
def blocksEvents (polls : Nat → Nat) : List (Vector Word 16) → List Event
  | [] => []
  | b :: bs => blockEvents (polls 0) b ++ blocksEvents (fun k => polls (k + 1)) bs

/-- How H comes to be IV before the first block (R204 step 1): it is IV already, as a reset leaves it, and the host does nothing; or the
host writes `init`. -/
inductive DigestStart where
  | afterReset
  | init
  deriving DecidableEq, Repr

/-- What the host takes the digest as (R204 step 7). -/
inductive Readout where
  | hash
  | hex
  | base64
  deriving DecidableEq, Repr

/-- Step 1 (R204). -/
def startEvents : DigestStart → List Event
  | .afterReset => []
  | .init => [.host (encode .init)]

/-- The accesses of `rdhash`, in order (R90). -/
def hashReads : List Event := (List.finRange 8).map fun j => .host (encode (.rdHash j))

/-- The accesses of `rdout k`, in order; for k above 16 as `Pseudo.expand` (R90, log 15). -/
def outReads (k : Nat) : List Event := ((List.finRange 16).take k).map fun n => .host (encode (.rdOut n))

/-- Step 7: `rdhash`, or an ENCODE, its wait, and the OUT words that hold its characters (R204, R207). -/
def readoutEvents (polls : Nat) : Readout → List Event
  | .hash => hashReads
  | .hex => [.host (encode .encodeHex)] ++ waitEvents polls ++ outReads 16
  | .base64 => [.host (encode .encodeB64)] ++ waitEvents polls ++ outReads 11

/-- What a host signals by itself, before any access. -/
inductive HostSignal where
  /-- `InputTooLarge` (R202). -/
  | inputTooLarge
  deriving DecidableEq, Repr

/-- The digest procedure of a message (R204): step 1, the wait before the first block (one STATUS read, nothing being pending), the
blocks, each with its COMPRESS and the wait after it, and step 7. Wait number `k` that has an ENGINE step to wait for sees `polls k`
busy polls. For a message that is too large the host signals that and sends nothing (R202). -/
def digestProcedure (start : DigestStart) (readout : Readout) (polls : Nat → Nat) (m : List Byte) :
    Except HostSignal (List Event) :=
  if inputTooLarge m then .error .inputTooLarge
  else .ok (startEvents start ++ [.host (encode .rdStatus)] ++ blocksEvents polls (blocks m)
    ++ readoutEvents (polls (blocks m).length) readout)

/-- An event with its command word, if it is one, written as the access of CMD that carries it (R80). -/
def busForm : Event → Event
  | .host (.command w) => .host (encode (.wrCmd w))
  | .host (.access key data) => .host (.access key data)
  | .engine => .engine
  | .reset => .reset

/-- What the host has after step 7: the digest bytes, or its output string (R204, R205). -/
def digestOutput (readout : Readout) (m : List Byte) : List Byte :=
  match readout with
  | .hash => (sha256 m).toList
  | .hex => (encHex (sha256 m)).toList
  | .base64 => (encB64 (sha256 m)).toList

/-- The stream bytes of the words the host has read, by the packing of R64 (R207, R65). -/
def streamOf (ws : List Word) : List Byte :=
  ws.flatMap fun w => [byteBE w 0, byteBE w 1, byteBE w 2, byteBE w 3]

/-- The value of a Base64 character; the pad character and every character outside the alphabet count 0 (R164 read backwards). -/
def b64Value (c : Byte) : BitVec 6 :=
  if 0x41#8 ≤ c ∧ c ≤ 0x5A#8 then (c - 0x41#8).truncate 6
  else if 0x61#8 ≤ c ∧ c ≤ 0x7A#8 then (c - 0x61#8 + 26#8).truncate 6
  else if 0x30#8 ≤ c ∧ c ≤ 0x39#8 then (c - 0x30#8 + 52#8).truncate 6
  else if c = 0x2B#8 then 62#6
  else if c = 0x2F#8 then 63#6
  else 0#6

/-- Decoding 44 Base64 characters back to 32 bytes, as a host would (R167): byte `k` stands in the 24 bits of the four characters of
group `k / 3`. -/
def decodeB64 (cs : Vector Byte 44) : Vector Byte 32 :=
  Vector.ofFn fun k : Fin 32 =>
    (b64Value (cs[4 * (k.val / 3)]'(by omega)) ++ b64Value (cs[4 * (k.val / 3) + 1]'(by omega))
      ++ b64Value (cs[4 * (k.val / 3) + 2]'(by omega)) ++ b64Value (cs[4 * (k.val / 3) + 3]'(by omega))).extractLsb'
      (16 - 8 * (k.val % 3)) 8

end Sys2Proof.Machine
end

