-- ==== Sys2Proof/Machine/HostAsm.lean ====
section
/-! DEFINITION. The host assembly (spec/30_encoding.md R89, R90): base statements, pseudo-instructions with their expansions, and a
host thread that performs them against the engine (R211: variables, labels and branches are the host's). The machine's step does not
use this file: the engine sees only the accesses. -/

namespace Sys2Proof.Machine

/-- The register names of R89. -/
inductive Reg where
  | cmd
  | status
  | id
  | msg (i : Fin 16)
  | hash (j : Fin 8)
  | out (n : Fin 16)
  deriving DecidableEq, Repr

/-- The offset of a register (R61). -/
def Reg.off : Reg → BitVec 8
  | .cmd => 0x00#8
  | .status => 0x04#8
  | .id => 0x08#8
  | .msg i => msgOff i
  | .hash j => hashOff j
  | .out n => outOff n

/-- The base statements (R89). -/
inductive Stmt where
  | wr (r : Reg) (v : Word)
  | rd (r : Reg) (var : String)
  | wrx (off : BitVec 8) (size : BitVec 3) (v : Word)
  | rdx (off : BitVec 8) (size : BitVec 3) (var : String)
  | label (l : String)
  | bnz (var : String) (mask : Word) (l : String)
  deriving DecidableEq, Repr

/-- The pseudo-instructions (R90). R90 says that the label of `wait` is fresh, not how it is made: the model's choice is that it is an
operand of `wait` (log 16), which `waitsFresh` checks in a program; `rdhash` and `rdout` name their variables by position. -/
inductive Pseudo where
  | nop
  | init
  | compress
  | encode (fmt : BitVec 4)
  | clrerr
  | wait (fresh : String)
  | ldblk (b : Vector Word 16)
  | rdhash
  | rdout (k : Nat)
  deriving DecidableEq, Repr

/-- The command word of `encode <n>`, `(n << 4) ∨ 0x3` (R90); `encode hex` is n = 0 and `encode base64` n = 1. -/
def encodeWord (fmt : BitVec 4) : Word := (fmt.zeroExtend 32 <<< 4) ||| 0x3#32

/-- The labels that the waits of a program bring in, in order. -/
def waitLabels (ps : List Pseudo) : List String :=
  ps.filterMap fun p => match p with
    | .wait fresh => some fresh
    | .nop | .init | .compress | .encode _ | .clrerr | .ldblk _ | .rdhash | .rdout _ => none

/-- Every `wait` of the program has a label of its own, as R90 asks (log 16): pseudo-instructions bring in no other labels.
That they also differ from the labels of base statements written beside the expansion is the writer's duty. -/
def waitsFresh (ps : List Pseudo) : Bool := decide (waitLabels ps).Nodup

/-- The expansions of R90. The label of a `wait` is taken as its operand gives it: the expansion neither makes it fresh nor checks it
(log 16; a program in which it is not is one of the repeated labels of log 11). For `rdout k` with k above 16, which R90 does not
exclude and R89 has no OUT register for, the model's choice (log 15): the 16 reads of OUT0 to OUT15 and no more. -/
def Pseudo.expand : Pseudo → List Stmt
  | .nop => [.wr .cmd 0x00000000#32]
  | .init => [.wr .cmd 0x00000001#32]
  | .compress => [.wr .cmd 0x00000002#32]
  | .encode fmt => [.wr .cmd (encodeWord fmt)]
  | .clrerr => [.wr .cmd 0x00000004#32]
  | .wait fresh => [.label fresh, .rd .status "s", .bnz "s" 0x1#32 fresh]
  | .ldblk b => (List.finRange 16).map fun i => .wr (.msg i) b[i.val]
  | .rdhash => (List.finRange 8).map fun j => .rd (.hash j) ("h" ++ toString j.val)
  | .rdout k => ((List.finRange 16).take k).map fun n => .rd (.out n) ("o" ++ toString n.val)

/-- Step 1 of the digest procedure as statements (R204). -/
def startProgram : DigestStart → List Pseudo
  | .afterReset => []
  | .init => [.init]

/-- Steps 2 to 5 for a list of blocks, the first of them number `b`; each `wait` has a label of its own (R204). -/
def blocksProgram (b : Nat) : List (Vector Word 16) → List Pseudo
  | [] => []
  | w :: ws => [.wait ("W" ++ toString b), .ldblk w, .compress] ++ blocksProgram (b + 1) ws

/-- Step 7 as statements (R204). -/
def readoutProgram : Readout → List Pseudo
  | .hash => [.rdhash]
  | .hex => [.encode 0#4, .wait "E", .rdout 16]
  | .base64 => [.encode 1#4, .wait "E", .rdout 11]

/-- The digest procedure of R204 as a host program, step by step, its waits labelled `W0`, `W1`, …, and `E` for the one after ENCODE, all
different (log 16); nothing of it for a message that is too large (R202). -/
def digestProgram (start : DigestStart) (readout : Readout) (m : List Byte) : Except HostSignal (List Pseudo) :=
  if inputTooLarge m then .error .inputTooLarge
  else .ok (startProgram start ++ blocksProgram 0 (blocks m) ++ [.wait ("W" ++ toString (blocks m).length)]
    ++ readoutProgram readout)

/-- A program's base statements (R90). -/
def expandProgram (ps : List Pseudo) : List Stmt := ps.flatMap Pseudo.expand

/-- The access a base statement is, as the engine sees it; a label and a branch are none (R89). -/
def Stmt.item : Stmt → Option HostItem
  | .wr r v => some (encodeXfer (.write v) 4#3 r.off)
  | .rd r _ => some (encodeXfer .read 4#3 r.off)
  | .wrx off size v => some (encodeXfer (.write v) size off)
  | .rdx off size _ => some (encodeXfer .read size off)
  | .label _ => none
  | .bnz _ _ _ => none

/-- The word a host variable holds that nothing has set. The spec is silent; free (log 11). -/
opaque unsetVariable : String → Word

/-- A host program in execution. -/
structure HostThread where
  prog : List Stmt
  pc : Nat
  vars : List (String × Word)
  deriving DecidableEq, Repr

/-- The value of a host variable. -/
def HostThread.var (t : HostThread) (x : String) : Word := (t.vars.lookup x).getD (unsetVariable x)

/-- The statement after this one. -/
def HostThread.advance (t : HostThread) : HostThread := { t with pc := t.pc + 1 }

/-- `$x <- v`, and on to the next statement. -/
def HostThread.assign (t : HostThread) (x : String) (v : Word) : HostThread :=
  { t.advance with vars := (x, v) :: t.vars }

/-- Go to a label. Where the spec is silent, the model's choice (log 11): a label that stands more than once is the first of them, and
without such a label the host ends. -/
def HostThread.jump (t : HostThread) (l : String) : HostThread :=
  { t with pc := t.prog.findIdx (fun st => decide (st = .label l)) }

/-- A host read: the word goes to the host's record and to the variable. -/
def HostThread.readInto (t : HostThread) (x : String) (off : BitVec 8) (size : BitVec 3) (s : State) : HostThread × State :=
  (t.assign x (busRead off size s).1, busAccess .read size off s)

/-- One statement of the host program against the engine (R89); a thread past its last statement stays (R208). -/
def HostThread.step (t : HostThread) (s : State) : HostThread × State :=
  match t.prog[t.pc]? with
  | none => (t, s)
  | some (.wr r v) => (t.advance, busAccess (.write v) 4#3 r.off s)
  | some (.rd r x) => t.readInto x r.off 4#3 s
  | some (.wrx off size v) => (t.advance, busAccess (.write v) size off s)
  | some (.rdx off size x) => t.readInto x off size s
  | some (.label _) => (t.advance, s)
  | some (.bnz x mask l) => (if t.var x &&& mask ≠ 0#32 then t.jump l else t.advance, s)

end Sys2Proof.Machine
end

