-- ==== Sys2Proof/Safety.lean ====
section
/-! DEFINITION. What the claims call a good state and a safe run: the invariants of the output and of the hash state, the error an
access is due, the host that respects the BUSY hazard, and the end of a run. -/

namespace Sys2Proof.Machine

/-- No error flag is set. -/
def State.clean (s : State) : Prop := s.errAddr = false ∧ s.errBusy = false ∧ s.errCmd = false ∧ s.errFmt = false

/-- The output is empty, or it is the hex or the Base64 encoding of the hash state as it is now, with zeros after the last character
(R23, R24, R246). -/
def State.outputFresh (s : State) : Prop :=
  (s.outlen = 0#8 ∧ s.outb = Vector.replicate 64 0#8) ∨ (s.outlen = 64#8 ∧ s.outb = hexOutput s.h) ∨
    (s.outlen = 44#8 ∧ s.outb = b64Output s.h)

/-- The hash state is a chain of compressions from IV (R146, R184, 92 D15). -/
def State.hashIsChain (s : State) : Prop := ∃ bs : List (Vector Word 16), s.h = bs.foldl compress iv

/-- The run has ended: the host has made its last access and nothing is pending (R208). -/
def State.endOfRun (s : State) : Prop := s.events = [] ∧ s.pend = .none

/-- The two states hold the same engine state (R20); only the host's record and the events to come may differ. -/
def State.sameEngine (s t : State) : Prop :=
  s.h = t.h ∧ s.msg = t.msg ∧ s.outb = t.outb ∧ s.outlen = t.outlen ∧ s.pend = t.pend ∧
    s.errAddr = t.errAddr ∧ s.errBusy = t.errBusy ∧ s.errCmd = t.errCmd ∧ s.errFmt = t.errFmt

/-- The host's reads of STATUS left out: what it read elsewhere, in order. -/
def State.otherReads (s : State) : List ReadRecord :=
  s.reads.filter fun r => !(decide (r.off = 0x04#8) && decide (r.size = 4#3))

/-- A read that a host may make at any time: STATUS, ID or CMD (R209, R243). -/
def quietRead (item : HostItem) : Prop :=
  decode item = .ok .rdStatus ∨ decode item = .ok .rdId ∨ decode item = .ok .rdCmd

/-- The host respects the BUSY hazard at this event: any access but a quiet read falls while nothing is pending (R209, R243). -/
def respectsBusy (e : Event) (s : State) : Prop :=
  match e with
  | .host item => s.pend = .none ∨ quietRead item
  | .engine => True
  | .reset => True

/-- The host respects the BUSY hazard at every event of the list, run from `s`. -/
def hazardFree : List Event → State → Prop
  | [], _ => True
  | e :: es, s => respectsBusy e s ∧ ∀ t, eventStep e { s with events := es } = .next t → hazardFree es t

/-- The events with the ENGINE's turns left out: what the outside does, in order. -/
def outsideEvents (es : List Event) : List Event := es.filter fun e => decide (e ≠ .engine)

/-- An offset the map of R61 does not list. -/
def unmappedOff (off : BitVec 8) : Prop := (0x0C#8 ≤ off ∧ off ≤ 0x3F#8) ∨ (0xA0#8 ≤ off ∧ off ≤ 0xBF#8)

/-- An offset of a register that is read-only by R61: STATUS, ID, HASH, OUT. -/
def readOnlyOff (off : BitVec 8) : Prop :=
  off = 0x04#8 ∨ off = 0x08#8 ∨ (0x80#8 ≤ off ∧ off ≤ 0x9C#8) ∨ 0xC0#8 ≤ off

/-- The cause of ERR_ADDR (R221): a bad size, a misaligned or unmapped offset, or a write to a read-only register. -/
def addrCause (write : Bool) (size : BitVec 3) (off : BitVec 8) : Prop :=
  size ≠ 4#3 ∨ off.extractLsb' 0 2 ≠ 0#2 ∨ unmappedOff off ∨ (write = true ∧ readOnlyOff off)

/-- An access that is refused while an operation is pending (R221, ERR_BUSY): any write to CMD or MSG, any read of MSG, HASH or OUT. -/
def busyCause (write : Bool) (off : BitVec 8) : Prop := write = true ∨ 0x40#8 ≤ off

/-- The words of the three cases of R85. -/
def illegalWord (w : Word) : Prop :=
  w.extractLsb' 8 24 ≠ 0#24 ∨ 0x5#4 ≤ w.extractLsb' 0 4 ∨ (w.extractLsb' 0 4 ≠ 0x3#4 ∧ w.extractLsb' 4 4 ≠ 0#4)

/-- ENCODE with FMT 2..15 and RSV = 0 (R221, ERR_FMT). -/
def badFmtWord (w : Word) : Prop :=
  w.extractLsb' 8 24 = 0#24 ∧ w.extractLsb' 0 4 = 0x3#4 ∧ 2#4 ≤ w.extractLsb' 4 4

/-- What a malformed or unmapped access of `size` bytes at `off` leaves: ERR_ADDR, and a read
returns 0 (R191, R192). -/
def addrErrorOf (x : Xfer) (size : BitVec 3) (off : BitVec 8) (s : State) : State :=
  match x with
  | .read => { s with errAddr := true, reads := s.reads ++ [⟨off, size, 0#32⟩] }
  | .write _ => { s with errAddr := true }

end Sys2Proof.Machine
end

