-- ==== Sys2Proof/Certificates/Slice0/Obligations.lean ====
section
/-! DEFINITION. The statements for the provers. Each docstring names the rule of spec/ it formalises. Error flags and cleared outputs are
written out as record updates, not through the model's own operations. -/

open Sys2Proof Sys2Proof.Machine

/-! ## Steps and agents -/

/-- A host item that decodes to an instruction is performed by `exec`, the event taken off first (R5, R69, R80). -/
def Obligations.StepRunsTheDecodedItem : Prop :=
  ∀ (s : State) (item : HostItem) (es : List Event) (i : Instr),
    s.events = .host item :: es → decode item = .ok i → step s = exec i { s with events := es }

/-- An access whose size is none of 1, 2, 4, for which the table has no row, raises ERR_ADDR and reads 0 (R88, R192, log 6). -/
def Obligations.OtherSizesRaiseErrAddr : Prop :=
  ∀ (s : State) (key : BitVec 12) (data : Word) (es : List Event),
    s.events = .host (.access key data) :: es → keySize key ≠ 1#3 → keySize key ≠ 2#3 → keySize key ≠ 4#3 →
      step s = .next { s with
        events := es
        errAddr := true
        reads := if keyIsWrite key then s.reads else s.reads ++ [⟨keyOff key, keySize key, 0#32⟩] }

/-- The ENGINE's turn, and the end of the event list (log 3): the whole pending operation, then PEND is NONE; with nothing pending the
state stays (R126, R232). -/
def Obligations.EngineTurnCompletesThePendingOperation : Prop :=
  ∀ (s : State) (es : List Event), (s.events = .engine :: es ∨ (s.events = [] ∧ es = [])) →
    step s = .next
      (match s.pend with
      | .none => { s with events := es }
      | .compress => { s with events := es, pend := .none, h := compress s.h s.msg, outb := Vector.replicate 64 0#8, outlen := 0#8 }
      | .encodeHex => { s with events := es, pend := .none, outb := hexOutput s.h, outlen := 64#8 }
      | .encodeB64 => { s with events := es, pend := .none, outb := b64Output s.h, outlen := 44#8 })

/-- RESET sets every element of the engine to its reset value whatever it held, and drops a pending operation (R240). -/
def Obligations.ResetEventRestoresTheResetState : Prop :=
  ∀ (s : State) (es : List Event), s.events = .reset :: es →
    step s = .next { State.reset with reads := s.reads, events := es }

/-- The values of R36, and STATUS as read after reset. -/
def Obligations.ResetValues : Prop :=
  State.reset.h = #v[0x6A09E667#32, 0xBB67AE85#32, 0x3C6EF372#32, 0xA54FF53A#32, 0x510E527F#32, 0x9B05688C#32,
      0x1F83D9AB#32, 0x5BE0CD19#32] ∧
    (∀ i : Fin 16, State.reset.msg[i.val] = 0#32) ∧ (∀ k : Fin 64, State.reset.outb[k.val] = 0#8) ∧
    State.reset.outlen = 0#8 ∧ State.reset.pend = .none ∧ State.reset.errAddr = false ∧ State.reset.errBusy = false ∧
    State.reset.errCmd = false ∧ State.reset.errFmt = false ∧ State.reset.status = 0#32

/-- No error stops the engine: from every state there is a next state (R220, R224). -/
def Obligations.EveryStepAnswersANextState : Prop := ∀ s : State, ∃ t : State, step s = .next t

/-- After as many steps as there are events, and one more, the run has ended: no event is left and nothing is pending. A pending
operation is completed after finitely many host steps (R208, R247; that the last step is the ENGINE's is log 3). -/
def Obligations.EveryRunEnds : Prop :=
  ∀ s : State, ∃ t : State, Sys2Proof.core.run (s.events.length + 1) s = .next t ∧ t.endOfRun

/-! ## Commands -/

/-- NOP (R121). -/
def Obligations.NopDoesNothing : Prop :=
  decode (.command 0x00000000#32) = .ok .nop ∧
    (∀ s : State, s.pend = .none → exec .nop s = .next s) ∧
    (∀ s : State, s.pend ≠ .none → exec .nop s = .next { s with errBusy := true }) ∧
    (∀ (s : State) (w : Word), s.pend = .none → w.extractLsb' 0 4 = 0#4 → w ≠ 0#32 →
      exec (.wrCmd w) s = .next { s with errCmd := true })

/-- INIT (R122). -/
def Obligations.InitLoadsIvAndClearsTheOutput : Prop :=
  decode (.command 0x00000001#32) = .ok .init ∧
    (∀ s : State, s.pend = .none → exec .init s = .next { s with
      h := #v[0x6A09E667#32, 0xBB67AE85#32, 0x3C6EF372#32, 0xA54FF53A#32, 0x510E527F#32, 0x9B05688C#32, 0x1F83D9AB#32,
        0x5BE0CD19#32]
      outb := Vector.replicate 64 0#8
      outlen := 0#8 }) ∧
    (∀ s : State, s.pend ≠ .none → exec .init s = .next { s with errBusy := true }) ∧
    exec .init State.reset = .next State.reset ∧
    (∀ s t : State, s.pend = .none → exec .init s = .next t → exec .init t = .next t)

/-- CLRERR (R123). -/
def Obligations.ClrErrClearsTheFourFlags : Prop :=
  decode (.command 0x00000004#32) = .ok .clrErr ∧
    (∀ s : State, s.pend = .none →
      exec .clrErr s = .next { s with errAddr := false, errBusy := false, errCmd := false, errFmt := false }) ∧
    (∀ s : State, s.pend ≠ .none → exec .clrErr s = .next { s with errBusy := true }) ∧
    (∀ s : State, s.pend = .none → s.clean → exec .clrErr s = .next s) ∧
    (∀ (s : State) (w : Word), s.pend = .none → w.extractLsb' 0 4 = 4#4 → w ≠ 4#32 →
      exec (.wrCmd w) s = .next { s with errCmd := true })

/-- COMPRESS: the issue only sets PEND; MSG cannot change while it is pending; the ENGINE step compresses, keeps MSG and clears the
output (R145). -/
def Obligations.CompressIssuesAndCompletes : Prop :=
  decode (.command 0x00000002#32) = .ok .compress ∧
    (∀ s : State, s.pend = .none → exec .compress s = .next { s with pend := .compress }) ∧
    (∀ s : State, s.pend ≠ .none → exec .compress s = .next { s with errBusy := true }) ∧
    (∀ (s : State) (w : Word), s.pend = .none → w.extractLsb' 0 4 = 2#4 → w ≠ 2#32 →
      exec (.wrCmd w) s = .next { s with errCmd := true }) ∧
    (∀ (s : State) (i : Fin 16) (v : Word), s.pend = .compress → exec (.wrMsg i v) s = .next { s with errBusy := true }) ∧
    (∀ (s : State) (es : List Event), s.pend = .compress → s.events = .engine :: es →
      step s = .next { s with
        events := es
        h := compress s.h s.msg
        outb := Vector.replicate 64 0#8
        outlen := 0#8
        pend := .none })

/-- ENCODE with FMT 0 and 1: the issue sets PEND only (R165, its issue half). -/
def Obligations.EncodeIssuesHexAndBase64 : Prop :=
  decode (.command 0x00000003#32) = .ok .encodeHex ∧ decode (.command 0x00000013#32) = .ok .encodeB64 ∧
    (∀ s : State, s.pend = .none →
      exec .encodeHex s = .next { s with pend := .encodeHex } ∧ exec .encodeB64 s = .next { s with pend := .encodeB64 }) ∧
    (∀ s : State, s.pend ≠ .none →
      exec .encodeHex s = .next { s with errBusy := true } ∧ exec .encodeB64 s = .next { s with errBusy := true })

/-- ENCODE with an unrecognised format: the output is cleared and ERR_FMT is set at once; a nonzero RSV makes the word ILLEGAL (R165,
its error half; log 7). -/
def Obligations.EncodeBadFormatClearsAndFlags : Prop :=
  (∀ fmt : BitVec 4, 2#4 ≤ fmt → decode (.command (0#24 ++ fmt ++ 3#4)) = .ok (.encodeBadFmt fmt)) ∧
    (∀ (s : State) (fmt : BitVec 4), s.pend = .none → 2#4 ≤ fmt →
      exec (.encodeBadFmt fmt) s = .next { s with outb := Vector.replicate 64 0#8, outlen := 0#8, errFmt := true }) ∧
    (∀ (s : State) (fmt : BitVec 4), s.pend ≠ .none → exec (.encodeBadFmt fmt) s = .next { s with errBusy := true }) ∧
    (∀ (s : State) (w : Word), s.pend = .none → w.extractLsb' 0 4 = 3#4 → w.extractLsb' 8 24 ≠ 0#24 →
      exec (.wrCmd w) s = .next { s with errCmd := true })

/-- The completion of ENCODE, character by character: the encoding of H as it stands, zeros past it; H, MSG and the flags stay
(R165, its completion half). -/
def Obligations.EncodeCompletionFillsTheOutput : Prop :=
  (∀ (s t : State) (es : List Event), s.pend = .encodeHex → s.events = .engine :: es → step s = .next t →
    (∀ k : Fin 64, t.outb[k.val] = (encHex (serialize s.h))[k.val]) ∧
      t = { s with events := es, pend := .none, outlen := 64#8, outb := t.outb }) ∧
  (∀ (s t : State) (es : List Event), s.pend = .encodeB64 → s.events = .engine :: es → step s = .next t →
    (∀ k : Fin 44, t.outb[k.val] = (encB64 (serialize s.h))[k.val]) ∧ (∀ k : Fin 64, 44 ≤ k.val → t.outb[k.val] = 0#8) ∧
      t = { s with events := es, pend := .none, outlen := 44#8, outb := t.outb })

/-- ILLEGAL covers exactly the words of R85; written while BUSY = 0, each raises ERR_CMD and does nothing else; an ENCODE with
FMT 2..15 is not among them. -/
def Obligations.IllegalWordsRaiseErrCmdOnly : Prop :=
  (∀ w : Word, decodeCmd w = .illegal ↔ illegalWord w) ∧
    (∀ (s : State) (op fmt : BitVec 4) (rsv : BitVec 24), s.pend = .none →
      exec (.illegal op fmt rsv) s = .next { s with errCmd := true }) ∧
    (∀ (s : State) (w : Word), s.pend = .none → illegalWord w → exec (.wrCmd w) s = .next { s with errCmd := true }) ∧
    (∀ fmt : BitVec 4, 2#4 ≤ fmt → ¬ illegalWord (0#24 ++ fmt ++ 3#4))

/-- A command word while an operation is pending: every C-form instruction and every write of CMD is dropped with ERR_BUSY, the word
not decoded (R120, R125). -/
def Obligations.CommandsWhileBusyAreDropped : Prop :=
  ∀ (s : State), s.pend ≠ .none →
    (∀ w : Word, exec (.wrCmd w) s = .next { s with errBusy := true }) ∧
      ∀ (i : Instr) (w : Word), decode (.command w) = .ok i → exec i s = .next { s with errBusy := true }

/-- A write of CMD while BUSY = 0 performs the word it carries, word by word (R84, R86, R120, R122, R123, R145, R165, R182). That the
bad formats clear the output is R165 and R25 followed against R11 and R220 (log 7). -/
def Obligations.WrCmdPerformsTheWordItCarries : Prop :=
  ∀ (s : State) (w : Word), s.pend = .none →
    exec (.wrCmd w) s = .next
      (if w = 0#32 then s
      else if w = 1#32 then { s with h := iv, outb := Vector.replicate 64 0#8, outlen := 0#8 }
      else if w = 2#32 then { s with pend := .compress }
      else if w = 3#32 then { s with pend := .encodeHex }
      else if w = 0x13#32 then { s with pend := .encodeB64 }
      else if w = 4#32 then { s with errAddr := false, errBusy := false, errCmd := false, errFmt := false }
      else if w.toNat < 256 ∧ w.toNat % 16 = 3 then
        { s with outb := Vector.replicate 64 0#8, outlen := 0#8, errFmt := true }
      else { s with errCmd := true })

/-- The C form and the write of CMD that carries the same word are one and the same step (R80, R182, log 5). -/
def Obligations.CommandFormIsAWriteOfCmd : Prop :=
  ∀ (s : State) (w : Word) (es : List Event),
    step { s with events := .host (.command w) :: es } = step { s with events := .host (.access 0xC00#12 w) :: es }

/-! ## Register accesses -/

/-- RD.CMD returns 0 at any time, with no other effect (R185). -/
def Obligations.ReadCmdReturnsZero : Prop :=
  ∀ s : State, exec .rdCmd s = .next { s with reads := s.reads ++ [⟨0x00#8, 4#3, 0#32⟩] }

/-- RD.ID returns 0x53323536 at any time, with no other effect (R187). -/
def Obligations.ReadIdReturnsTheConstant : Prop :=
  ∀ s : State, exec .rdId s = .next { s with reads := s.reads ++ [⟨0x08#8, 4#3, 0x53323536#32⟩] }

/-- RD.STATUS returns, at any time and with no other effect, the word of R26: each field at its bits, the reserved bits 0
(R26, R186). -/
def Obligations.ReadStatusReturnsTheFields : Prop :=
  ∀ s : State, ∃ v : Word, exec .rdStatus s = .next { s with reads := s.reads ++ [⟨0x04#8, 4#3, v⟩] } ∧
    (v.getLsbD 0 = true ↔ s.pend ≠ .none) ∧ v.getLsbD 1 = s.errAddr ∧ v.getLsbD 2 = s.errBusy ∧ v.getLsbD 3 = s.errCmd ∧
    v.getLsbD 4 = s.errFmt ∧ v.extractLsb' 5 3 = 0#3 ∧ v.extractLsb' 8 8 = s.outlen ∧ v.extractLsb' 16 16 = 0#16

/-- WR.MSG: MSG[i] takes the word while BUSY = 0 and nothing else changes; while BUSY = 1 it is dropped with ERR_BUSY; writing the same
word twice is the same as once; the commands and every ENGINE step keep MSG (R183). -/
def Obligations.WriteMsgStoresTheWord : Prop :=
  (∀ (s : State) (i : Fin 16) (v : Word), s.pend = .none → ∃ t : State, exec (.wrMsg i v) s = .next t ∧
      t = { s with msg := t.msg } ∧ t.msg[i.val] = v ∧ (∀ j : Fin 16, j ≠ i → t.msg[j.val] = s.msg[j.val]) ∧
      exec (.wrMsg i v) t = .next t ∧ exec (.rdMsg i) t = .next { t with reads := t.reads ++ [⟨msgOff i, 4#3, v⟩] }) ∧
    (∀ (s : State) (i : Fin 16) (v : Word), s.pend ≠ .none → exec (.wrMsg i v) s = .next { s with errBusy := true }) ∧
    (∀ (s t : State) (i : Instr), (i ∈ [Instr.init, .compress, .encodeHex, .encodeB64, .clrErr] ∨ ∃ fmt, i = .encodeBadFmt fmt) →
      exec i s = .next t → t.msg = s.msg) ∧
    (∀ (s t : State) (es : List Event), s.events = .engine :: es → step s = .next t → t.msg = s.msg)

/-- RD.MSG: MSG[i] while BUSY = 0; 0 and ERR_BUSY while BUSY = 1 (R188). -/
def Obligations.ReadMsgReturnsTheWord : Prop :=
  ∀ (s : State) (i : Fin 16),
    (s.pend = .none → exec (.rdMsg i) s = .next { s with
      reads := s.reads ++ [⟨BitVec.ofNat 8 (0x40 + 4 * i.val), 4#3, s.msg[i.val]⟩] }) ∧
    (s.pend ≠ .none → exec (.rdMsg i) s = .next { s with
      errBusy := true
      reads := s.reads ++ [⟨BitVec.ofNat 8 (0x40 + 4 * i.val), 4#3, 0#32⟩] })

/-- RD.HASH: H[j], that is digest bytes 4j to 4j+3 with the first in bits 31:24, while BUSY = 0; 0 and ERR_BUSY while BUSY = 1
(R189, R160). -/
def Obligations.ReadHashReturnsTheDigestBytes : Prop :=
  ∀ (s : State) (j : Fin 8),
    (s.pend = .none → exec (.rdHash j) s = .next { s with
      reads := s.reads ++ [⟨BitVec.ofNat 8 (0x80 + 4 * j.val), 4#3, s.h[j.val]⟩] }) ∧
    (s.pend ≠ .none → exec (.rdHash j) s = .next { s with
      errBusy := true
      reads := s.reads ++ [⟨BitVec.ofNat 8 (0x80 + 4 * j.val), 4#3, 0#32⟩] }) ∧
    s.h[j.val] = (serialize s.h)[4 * j.val]'(by omega) ++ (serialize s.h)[4 * j.val + 1]'(by omega)
      ++ (serialize s.h)[4 * j.val + 2]'(by omega) ++ (serialize s.h)[4 * j.val + 3]'(by omega)

/-- RD.OUT: characters 4n to 4n+3, the first in bits 31:24, while BUSY = 0; 0 and ERR_BUSY while BUSY = 1; in a state whose output is
fresh (the invariant of `StepKeepsTheOutputFresh`) words wholly past OUTLEN read 0 (R190). -/
def Obligations.ReadOutReturnsFourCharacters : Prop :=
  ∀ (s : State) (n : Fin 16),
    (s.pend = .none → exec (.rdOut n) s = .next { s with
      reads := s.reads ++ [⟨BitVec.ofNat 8 (0xC0 + 4 * n.val), 4#3,
        s.outb[4 * n.val]'(by omega) ++ s.outb[4 * n.val + 1]'(by omega) ++ s.outb[4 * n.val + 2]'(by omega)
          ++ s.outb[4 * n.val + 3]'(by omega)⟩] }) ∧
    (s.pend ≠ .none → exec (.rdOut n) s = .next { s with
      errBusy := true
      reads := s.reads ++ [⟨BitVec.ofNat 8 (0xC0 + 4 * n.val), 4#3, 0#32⟩] }) ∧
    (s.pend = .none → s.outputFresh → s.outlen.toNat ≤ 4 * n.val →
      exec (.rdOut n) s = .next { s with reads := s.reads ++ [⟨BitVec.ofNat 8 (0xC0 + 4 * n.val), 4#3, 0#32⟩] })

/-- A write to STATUS, ID, HASH[j] or OUT[n] raises ERR_ADDR and changes nothing else, even while BUSY = 1 (R184). -/
def Obligations.WritesToReadOnlyRegistersRaiseErrAddr : Prop :=
  ∀ (s : State) (v : Word) (j : Fin 8) (n : Fin 16) (i : Instr), i ∈ [.wrStatus v, .wrId v, .wrHash j v, .wrOut n v] →
    exec i s = .next { s with errAddr := true }

/-- The rows of the unmapped offsets: ERR_ADDR, a read returns 0, in every state; and every key with an unmapped offset, whatever its
kind and size, is performed so (R191). -/
def Obligations.UnmappedAccessesRaiseErrAddr : Prop :=
  (∀ (s : State) (x : Xfer) (off : BitVec 8),
    exec (.unmapped0C x) s = .next (addrErrorOf x 4#3 0x0C#8 s) ∧ exec (.unmapped10 x off) s = .next (addrErrorOf x 4#3 off s) ∧
      exec (.unmapped20 x off) s = .next (addrErrorOf x 4#3 off s) ∧
      exec (.unmappedA0 x off) s = .next (addrErrorOf x 4#3 off s)) ∧
  (∀ (s : State) (key : BitVec 12) (data : Word) (es : List Event),
    s.events = .host (.access key data) :: es → unmappedOff (keyOff key) →
      step s = .next (addrErrorOf (xferOf key data) (keySize key) (keyOff key) { s with events := es }))

/-- The rows of bad sizes and misaligned offsets: ERR_ADDR, a read returns 0, in every state; and every key whose size is not 4 or
whose offset is no multiple of 4 is performed so (R192). -/
def Obligations.MalformedAccessesRaiseErrAddr : Prop :=
  (∀ (s : State) (x : Xfer) (off : BitVec 8),
    exec (.badSize1 x off) s = .next (addrErrorOf x 1#3 off s) ∧ exec (.badSize2 x off) s = .next (addrErrorOf x 2#3 off s) ∧
      exec (.badAlign1 x off) s = .next (addrErrorOf x 4#3 off s) ∧
      exec (.badAlign2 x off) s = .next (addrErrorOf x 4#3 off s)) ∧
  (∀ (s : State) (key : BitVec 12) (data : Word) (es : List Event),
    s.events = .host (.access key data) :: es → (keySize key ≠ 4#3 ∨ (keyOff key).extractLsb' 0 2 ≠ 0#2) →
      step s = .next (addrErrorOf (xferOf key data) (keySize key) (keyOff key) { s with events := es }))

/-- The rows of the table have the meaning the general rules R180 and R181 give their accesses. -/
def Obligations.RowsAgreeWithTheGeneralBusRules : Prop :=
  ∀ (s : State) (key : BitVec 12) (data : Word) (i : Instr), decode (.access key data) = .ok i →
    exec i s = .next
      (if keyIsWrite key then busWrite (keyOff key) (keySize key) data s
      else { (busRead (keyOff key) (keySize key) s).2 with
        reads := s.reads ++ [⟨keyOff key, keySize key, (busRead (keyOff key) (keySize key) s).1⟩] })

/-! ## Errors -/

/-- One access raises at most one flag, the first in the order ERR_ADDR, ERR_BUSY, ERR_CMD, ERR_FMT whose cause holds; an access without
a cause raises none; a read with a cause returns 0 and a write returns nothing (R221, R222). That ERR_FMT comes with a cleared output is
R165 followed against the general words of R220 (log 7). This is about B-form accesses; a C-form word is a write of CMD by
`CommandFormIsAWriteOfCmd`. -/
def Obligations.OneErrorPerAccessByPriority : Prop :=
  ∀ (s t : State) (key : BitVec 12) (data : Word) (es : List Event),
    s.events = .host (.access key data) :: es → step s = .next t →
      let w := keyIsWrite key
      let off := keyOff key
      let ac := addrCause w (keySize key) off
      let bc := s.pend ≠ .none ∧ busyCause w off
      let cc := w = true ∧ off = 0x00#8 ∧ illegalWord data
      let fc := w = true ∧ off = 0x00#8 ∧ badFmtWord data
      (ac → t.sameEngine { s with errAddr := true }) ∧
        (¬ ac → bc → t.sameEngine { s with errBusy := true }) ∧
        (¬ ac → ¬ bc → cc → t.sameEngine { s with errCmd := true }) ∧
        (¬ ac → ¬ bc → ¬ cc → fc →
          t.sameEngine { s with errFmt := true, outb := Vector.replicate 64 0#8, outlen := 0#8 }) ∧
        (¬ ac → ¬ bc → ¬ cc → ¬ fc → ∀ f : ErrFlag, t.flag f = true → s.flag f = true) ∧
        (w = true → t.reads = s.reads) ∧
        (w = false → ac ∨ bc → t.reads = s.reads ++ [⟨off, keySize key, 0#32⟩])

/-- An error flag once set stays until CLRERR, accepted while BUSY = 0, or RESET clears it (R27, R223). -/
def Obligations.ErrorFlagsAreSticky : Prop :=
  ∀ (s t : State) (f : ErrFlag), step s = .next t → s.flag f = true → t.flag f = false →
    (∃ es, s.events = .reset :: es) ∨
      (s.pend = .none ∧ ∃ es, s.events = .host (.command 4#32) :: es ∨ s.events = .host (.access 0xC00#12 4#32) :: es)

/-- A set flag does not stop or change any later step: two states that differ in their error flags alone step to states that agree on
everything but the flags and the STATUS words read (R224, R27). -/
def Obligations.ErrorFlagsNeverBlock : Prop :=
  ∀ (s t : State) (a b c d : Bool) (t' : State), step s = .next t →
    step { s with errAddr := a, errBusy := b, errCmd := c, errFmt := d } = .next t' →
      t'.h = t.h ∧ t'.msg = t.msg ∧ t'.outb = t.outb ∧ t'.outlen = t.outlen ∧ t'.pend = t.pend ∧ t'.events = t.events ∧
        t'.otherReads = t.otherReads

/-! ## What writes what -/

/-- What `exec` leaves unchanged, for every instruction: H but for INIT, MSG but for WR.MSG (which writes one word), the output but for
INIT and ENCODE with a bad format, PEND but for COMPRESS and ENCODE, the flags but for being set or for CLRERR, the host's record but for
one entry by a read; WR.CMD as the command it carries; the events never (R21 to R24, R27, R30). -/
def Obligations.ExecFrame : Prop :=
  ∀ (i : Instr) (s t : State), exec i s = .next t →
    t.events = s.events ∧
    (t.h ≠ s.h → i = .init ∨ i = .wrCmd 1#32) ∧
    (t.msg ≠ s.msg → ∃ k v, i = .wrMsg k v ∧ ∀ j : Fin 16, j ≠ k → t.msg[j.val] = s.msg[j.val]) ∧
    ((t.outb ≠ s.outb ∨ t.outlen ≠ s.outlen) →
      i = .init ∨ i = .wrCmd 1#32 ∨ (∃ fmt, i = .encodeBadFmt fmt) ∨ ∃ w, i = .wrCmd w ∧ badFmtWord w) ∧
    (t.pend ≠ s.pend → s.pend = .none ∧
      (i = .compress ∨ i = .encodeHex ∨ i = .encodeB64 ∨ i = .wrCmd 2#32 ∨ i = .wrCmd 3#32 ∨ i = .wrCmd 0x13#32 ∨
        (∃ fmt, i = .encodeBadFmt fmt ∧ ¬ 2#4 ≤ fmt))) ∧
    ((∃ f : ErrFlag, s.flag f = true ∧ t.flag f = false) → i = .clrErr ∨ i = .wrCmd 4#32) ∧
    (t.reads = s.reads ∨ ∃ r, t.reads = s.reads ++ [r])

/-- Three things write H, and no other: INIT, the completion of COMPRESS, and RESET (R21). -/
def Obligations.HashIsWrittenByThreeEventsOnly : Prop :=
  ∀ s t : State, step s = .next t → t.h ≠ s.h →
    (t.h = iv ∧ ∃ es, s.events = .reset :: es) ∨
      (t.h = iv ∧ s.pend = .none ∧ ∃ es, s.events = .host (.command 1#32) :: es ∨ s.events = .host (.access 0xC00#12 1#32) :: es) ∨
      (t.h = compress s.h s.msg ∧ s.pend = .compress ∧ (s.events = [] ∨ ∃ es, s.events = .engine :: es))

/-- MSG is written only by a four-byte write of MSG[i] while BUSY = 0, and by RESET; so a block cannot change under its own compression
(R22, R183). -/
def Obligations.MsgIsWrittenByTheHostOnly : Prop :=
  ∀ s t : State, step s = .next t → t.msg ≠ s.msg →
    (t.msg = Vector.replicate 16 0#32 ∧ ∃ es, s.events = .reset :: es) ∨
      (s.pend = .none ∧ ∃ (i : Fin 16) (v : Word) (es : List Event), t.msg = s.msg.set i.val v ∧
        s.events = .host (.access (BitVec.ofNat 12 (0xC40 + 4 * i.val)) v) :: es)

/-- Every step keeps the output fresh: empty, or the encoding of H as it is now, so no encoding of an older H can be read; OUTLEN is 0,
44 or 64, and OUTB is 0 past OUTLEN (R23, R24, R246). -/
def Obligations.StepKeepsTheOutputFresh : Prop :=
  ∀ s t : State, s.outputFresh → step s = .next t → t.outputFresh

/-- In a state with a fresh output, OUTLEN is 0, 44 or 64 and OUTB is 0 past OUTLEN (R24). -/
def Obligations.FreshOutputIsZeroPastItsLength : Prop :=
  ∀ s : State, s.outputFresh →
    (s.outlen = 0#8 ∨ s.outlen = 44#8 ∨ s.outlen = 64#8) ∧ ∀ k : Fin 64, s.outlen.toNat ≤ k.val → s.outb[k.val] = 0#8

/-- Every step keeps the hash state a chain of compressions from IV: the host can never bring in another (R146, R184, 92 D15). -/
def Obligations.StepKeepsTheHashAChainFromIv : Prop :=
  ∀ s t : State, s.hashIsChain → step s = .next t → t.hashIsChain

/-- The reset state meets the two invariants. -/
def Obligations.ResetMeetsTheInvariants : Prop := State.reset.outputFresh ∧ State.reset.hashIsChain

/-! ## The two agents -/

/-- While an operation is pending the host sees nothing of H, MSG, OUTB or of which operation it is: its step reads the same word and
raises the same flags whatever they are, and changes none of them (R66, R147, R189). -/
def Obligations.PendingOperationHidesTheData : Prop :=
  ∀ (s t s' t' : State) (item : HostItem) (es : List Event), s.pend ≠ .none → s'.pend ≠ .none →
    s.outlen = s'.outlen → s.errAddr = s'.errAddr → s.errBusy = s'.errBusy → s.errCmd = s'.errCmd → s.errFmt = s'.errFmt →
    s.reads = s'.reads → s.events = .host item :: es → s'.events = .host item :: es → step s = .next t → step s' = .next t' →
      t.reads = t'.reads ∧ (∀ f : ErrFlag, t.flag f = t'.flag f) ∧
        t.h = s.h ∧ t.msg = s.msg ∧ t.outb = s.outb ∧ t.outlen = s.outlen ∧ t.pend = s.pend

/-- Two runs from one engine state, with the same host accesses and resets in the same order and the ENGINE's turns anywhere, end in the
same engine state with the same words read (STATUS reads apart), if in both the host respects the BUSY hazard (R209, R69, R243). -/
def Obligations.DisciplinedHostIsDeterministic : Prop :=
  ∀ (s t t' : State) (es : List Event), outsideEvents s.events = outsideEvents es →
    hazardFree s.events s → hazardFree es { s with events := es } →
    Sys2Proof.core.run (s.events.length + 1) s = .next t →
    Sys2Proof.core.run (es.length + 1) { s with events := es } = .next t' →
      t.sameEngine t' ∧ t.otherReads = t'.otherReads

/-! ## The function -/

/-- The rotation, bit by bit, and its fixed points (R101). -/
def Obligations.RotrMovesEveryBit : Prop :=
  ∀ (x : Word) (n : Nat), 1 ≤ n → n ≤ 31 →
    (∀ k : Nat, k < 32 → (rotr x n).getLsbD k = x.getLsbD ((k + n) % 32)) ∧ rotr 0#32 n = 0#32 ∧
      rotr 0xFFFFFFFF#32 n = 0xFFFFFFFF#32

/-- The four sigma functions, bit by bit (R104 to R107). -/
def Obligations.SigmaFunctionsBitByBit : Prop :=
  ∀ (x : Word) (k : Nat), k < 32 →
    (smallSigma0 x).getLsbD k = (x.getLsbD ((k + 7) % 32) ^^ x.getLsbD ((k + 18) % 32) ^^ x.getLsbD (k + 3)) ∧
    (smallSigma1 x).getLsbD k = (x.getLsbD ((k + 17) % 32) ^^ x.getLsbD ((k + 19) % 32) ^^ x.getLsbD (k + 10)) ∧
    (bigSigma0 x).getLsbD k = (x.getLsbD ((k + 2) % 32) ^^ x.getLsbD ((k + 13) % 32) ^^ x.getLsbD ((k + 22) % 32)) ∧
    (bigSigma1 x).getLsbD k = (x.getLsbD ((k + 6) % 32) ^^ x.getLsbD ((k + 11) % 32) ^^ x.getLsbD ((k + 25) % 32))

/-- Ch chooses by the bits of its first operand; Maj is the majority (R108, R109). -/
def Obligations.ChoosesAndVotesBitByBit : Prop :=
  ∀ (x y z : Word) (k : Nat), k < 32 →
    (ch x y z).getLsbD k = (if x.getLsbD k then y.getLsbD k else z.getLsbD k) ∧
    ((maj x y z).getLsbD k = true ↔
      2 ≤ (if x.getLsbD k then 1 else 0) + (if y.getLsbD k then 1 else 0) + (if z.getLsbD k then 1 else 0))

/-- The schedule: 64 words, the block first, then the recurrence; an all-zero block gives zeros (R140, R141). -/
def Obligations.ScheduleFollowsTheRecurrence : Prop :=
  (∀ msg : Vector Word 16,
    (schedule msg).length = 64 ∧ (∀ t : Fin 16, (schedule msg).getD t.val 0#32 = msg[t.val]) ∧
      ∀ t : Nat, 16 ≤ t → t ≤ 63 →
        (schedule msg).getD t 0#32 =
          (schedule msg).getD (t - 16) 0#32 + smallSigma0 ((schedule msg).getD (t - 15) 0#32)
            + (schedule msg).getD (t - 7) 0#32 + smallSigma1 ((schedule msg).getD (t - 2) 0#32)) ∧
  (∀ t : Nat, (schedule (Vector.replicate 16 0#32)).getD t 0#32 = 0#32)

/-- Compress is the seeding, 64 rounds, each the simultaneous assignment of R143 with K[i] and W[i], and the update (R142, R143,
R144). -/
def Obligations.CompressIsSixtyFourRounds : Prop :=
  ∀ (h : Vector Word 8) (msg : Vector Word 16), ∃ regs : Nat → Regs,
    regs 0 = ⟨h[0], h[1], h[2], h[3], h[4], h[5], h[6], h[7]⟩ ∧
    (∀ i : Nat, i < 64 →
      let r := regs i
      let t1 := r.h + (rotr r.e 6 ^^^ rotr r.e 11 ^^^ rotr r.e 25) + ((r.e &&& r.f) ^^^ (~~~r.e &&& r.g))
        + kRom.getD i 0#32 + (schedule msg).getD i 0#32
      let t2 := (rotr r.a 2 ^^^ rotr r.a 13 ^^^ rotr r.a 22) + ((r.a &&& r.b) ^^^ (r.a &&& r.c) ^^^ (r.b &&& r.c))
      regs (i + 1) = ⟨t1 + t2, r.a, r.b, r.c, r.d + t1, r.e, r.f, r.g⟩) ∧
    compress h msg = #v[h[0] + (regs 64).a, h[1] + (regs 64).b, h[2] + (regs 64).c, h[3] + (regs 64).d,
      h[4] + (regs 64).e, h[5] + (regs 64).f, h[6] + (regs 64).g, h[7] + (regs 64).h]

/-- The K ROM is what R31 defines: for the prime `p` number `i` (2 is number 0), `K[i]` is the cube root of `p * 2^96` rounded down,
modulo 2^32. -/
def Obligations.KRomIsFromTheCubeRootsOfThePrimes : Prop :=
  kRom.length = 64 ∧ ∀ i : Nat, i < 64 → ∃ r : Nat,
    r ^ 3 ≤ Nat.nth Nat.Prime i * 2 ^ 96 ∧ Nat.nth Nat.Prime i * 2 ^ 96 < (r + 1) ^ 3 ∧
      kRom.getD i 0#32 = BitVec.ofNat 32 r

/-- The IV ROM is what R32 defines: for the prime `p` number `j`, `IV[j]` is the square root of `p * 2^64` rounded down, modulo 2^32. -/
def Obligations.IvRomIsFromTheSquareRootsOfThePrimes : Prop :=
  ∀ j : Fin 8, ∃ r : Nat,
    r ^ 2 ≤ Nat.nth Nat.Prime j.val * 2 ^ 64 ∧ Nat.nth Nat.Prime j.val * 2 ^ 64 < (r + 1) ^ 2 ∧
      iv[j.val] = BitVec.ofNat 32 r

/-- Packing puts the first of four stream bytes in bits 31:24, the last in bits 7:0, and byte `m` of a word is its bits 31-8m:24-8m; the
two are inverse (R64). Word `i` of block `b` of a padded message is its bytes 64b+4i to 64b+4i+3 in that order, all of them bytes of the
padded message (R203, a host duty). -/
def Obligations.BigEndianPacking : Prop :=
  (∀ b0 b1 b2 b3 : Byte, (packBE b0 b1 b2 b3).extractLsb' 24 8 = b0 ∧ (packBE b0 b1 b2 b3).extractLsb' 16 8 = b1 ∧
      (packBE b0 b1 b2 b3).extractLsb' 8 8 = b2 ∧ (packBE b0 b1 b2 b3).extractLsb' 0 8 = b3) ∧
    (∀ w : Word, byteBE w 0 = w.extractLsb' 24 8 ∧ byteBE w 1 = w.extractLsb' 16 8 ∧ byteBE w 2 = w.extractLsb' 8 8 ∧
      byteBE w 3 = w.extractLsb' 0 8) ∧
    (∀ w : Word, packBE (byteBE w 0) (byteBE w 1) (byteBE w 2) (byteBE w 3) = w) ∧
    (∀ b0 b1 b2 b3 : Byte, byteBE (packBE b0 b1 b2 b3) 0 = b0 ∧ byteBE (packBE b0 b1 b2 b3) 1 = b1 ∧
      byteBE (packBE b0 b1 b2 b3) 2 = b2 ∧ byteBE (packBE b0 b1 b2 b3) 3 = b3) ∧
    ∀ (m : List Byte) (b : Nat) (i : Fin 16) (w : Vector Word 16), (blocks m)[b]? = some w →
      64 * b + 4 * i.val + 3 < (pad m).length ∧
        (pad m)[64 * b + 4 * i.val]? = some (w[i.val].extractLsb' 24 8) ∧
        (pad m)[64 * b + 4 * i.val + 1]? = some (w[i.val].extractLsb' 16 8) ∧
        (pad m)[64 * b + 4 * i.val + 2]? = some (w[i.val].extractLsb' 8 8) ∧
        (pad m)[64 * b + 4 * i.val + 3]? = some (w[i.val].extractLsb' 0 8)

/-- Serialize writes each word most significant byte first, the words in order (R160). -/
def Obligations.SerializeIsBigEndian : Prop :=
  ∀ (h : Vector Word 8) (j : Fin 8),
    (serialize h)[4 * j.val]'(by omega) = h[j.val].extractLsb' 24 8 ∧
      (serialize h)[4 * j.val + 1]'(by omega) = h[j.val].extractLsb' 16 8 ∧
      (serialize h)[4 * j.val + 2]'(by omega) = h[j.val].extractLsb' 8 8 ∧
      (serialize h)[4 * j.val + 3]'(by omega) = h[j.val].extractLsb' 0 8

/-- The hex output: two characters a byte, the most significant nibble first, each `0`..`9` or `a`..`f` with the nibble's value
(R161, R162, R166). -/
def Obligations.HexOutputIsTwoLowercaseDigitsAByte : Prop :=
  ∀ (d : Vector Byte 32) (k : Fin 32),
    let hi := (encHex d)[2 * k.val]'(by omega)
    let lo := (encHex d)[2 * k.val + 1]'(by omega)
    let value := fun c : Byte => if c.toNat ≤ 0x39 then c.toNat - 0x30 else c.toNat - 0x61 + 10
    (∀ c ∈ [hi, lo], (0x30 ≤ c.toNat ∧ c.toNat ≤ 0x39) ∨ (0x61 ≤ c.toNat ∧ c.toNat ≤ 0x66)) ∧
      d[k.val].toNat = 16 * value hi + value lo

/-- The Base64 output ends with its one `=`; every other character is of the alphabet, and C[42] has an index that is a multiple of 4
(R163, R164, R166). -/
def Obligations.Base64OutputHasOnePadAtItsEnd : Prop :=
  ∀ d : Vector Byte 32,
    (encB64 d)[43] = 0x3D#8 ∧ (∀ p : Fin 43, ∃ x : BitVec 6, (encB64 d)[p.val] = b64Char x ∧ b64Char x ≠ 0x3D#8) ∧
      (∃ x : BitVec 4, (encB64 d)[42] = b64Char (x ++ 0#2))

/-- Decoding the Base64 output gives back the digest bytes, and encoding those as hex gives the hex output (R167). -/
def Obligations.Base64AndHexEncodeTheSameBytes : Prop :=
  ∀ h : Vector Word 8, decodeB64 (encB64 (serialize h)) = serialize h ∧
    encHex (decodeB64 (encB64 (serialize h))) = encHex (serialize h)

/-- Padding: the message, 0x80, Z zeros, the bit length in 8 bytes; a whole number of blocks, `floor((L + 8) / 64) + 1` of them
(R201, a host duty). -/
def Obligations.PaddingMakesWholeBlocks : Prop :=
  ∀ m : List Byte, m.length < 2 ^ 61 →
    (pad m).length = 64 * ((m.length + 8) / 64 + 1) ∧ (blocks m).length = (m.length + 8) / 64 + 1 ∧
      (∀ k : Nat, k < m.length → (pad m).getD k 0#8 = m.getD k 0#8) ∧ (pad m).getD m.length 0#8 = 0x80#8 ∧
      (∀ k : Nat, m.length < k → k + 8 < (pad m).length → (pad m).getD k 0#8 = 0#8) ∧
      ((pad m).drop ((pad m).length - 8)).foldl (fun x b => 256 * x + b.toNat) 0 = 8 * m.length

/-- The digest procedure of R204, all seven steps. For a message of 2^61 bytes or more the host signals `InputTooLarge` and sends nothing
(R202). For any other, begun with nothing pending, by `init` or with H at IV, and whatever the number of polls before each ENGINE step:
it leaves in H the digest of R205, nothing pending and no error raised, and the words the host reads in step 7 are the digest or its hex
or Base64 string. -/
def Obligations.DigestProcedureComputesTheDigest : Prop :=
  ∀ (start : DigestStart) (readout : Readout) (polls : Nat → Nat) (m : List Byte),
    (2 ^ 61 ≤ m.length → digestProcedure start readout polls m = .error .inputTooLarge) ∧
    (m.length < 2 ^ 61 → ∃ es : List Event, digestProcedure start readout polls m = .ok es ∧
      ∀ s : State, s.pend = .none → (start = .afterReset → s.h = iv) → s.events = es →
        ∃ (t : State) (rs : List ReadRecord), Sys2Proof.core.run es.length s = .next t ∧ serialize t.h = sha256 m ∧
          t.pend = .none ∧ t.events = [] ∧ (∀ f : ErrFlag, t.flag f = s.flag f) ∧ t.otherReads = s.otherReads ++ rs ∧
          streamOf (rs.map ReadRecord.value) = digestOutput readout m)

/-! ## Encoding -/

/-- Decoding an encoded well-formed instruction gives it back, with every operand (R80 to R88). -/
def Obligations.DecodeEncodeRoundTrip : Prop :=
  ∀ i : Instr, i.wellFormed = true → decode (encode i) = .ok i

/-- Whatever decodes is well formed and encodes to the item it came from, a read's unused data word apart; a command word always
decodes, and an access is rejected exactly when its size is none of 1, 2, 4 (R62, R84, R88). That such a size is rejected as a row of the
table, where R88 itself answers BAD, is the model's choice (log 6), and so is a read's data word of 0 (log 10). -/
def Obligations.EncodeDecodeRoundTrip : Prop :=
  (∀ w : Word, ∃ i : Instr, decode (.command w) = .ok i ∧ i.wellFormed = true ∧ encode i = .command w) ∧
    (∀ (key : BitVec 12) (data : Word), keySize key = 1#3 ∨ keySize key = 2#3 ∨ keySize key = 4#3 →
      ∃ i : Instr, decode (.access key data) = .ok i ∧ i.wellFormed = true ∧
        encode i = .access key (if keyIsWrite key then data else 0#32)) ∧
    (∀ (key : BitVec 12) (data : Word), keySize key ≠ 1#3 → keySize key ≠ 2#3 → keySize key ≠ 4#3 →
      decode (.access key data) = .error (.sizeNotInTable (keySize key)))

/-- Words written out from the encodings decode to the instructions they stand for (R81 to R83, R86, R88, the table). The number
of bits that tells the two forms apart, and the data word 0 of the accesses, are the host's convention as the model takes it (log 9). -/
def Obligations.SampleWordsDecode : Prop :=
  decodeTableWord 32 0x00000002 = some .compress ∧ decodeTableWord 32 0x00000013 = some .encodeB64 ∧
    decodeTableWord 32 0x000000F3 = some (.encodeBadFmt 15#4) ∧ decodeTableWord 32 0x00000012 = some (.illegal 2#4 1#4 0#24) ∧
    decodeTableWord 16 0xC7C = some (.wrMsg 15 0#32) ∧ decodeTableWord 16 0x49C = some (.rdHash 7) ∧
    decodeTableWord 16 0x4FC = some (.rdOut 15) ∧ decodeTableWord 16 0x141 = some (.badSize1 .read 0x41#8) ∧
    decodeTableWord 16 0xCBC = some (.unmappedA0 (.write 0#32) 0xBC#8)

/-! ## The host's program -/

/-- A host statement that is an access is the machine's step on that access (R89, R211). -/
def Obligations.HostStatementIsAMachineStep : Prop :=
  ∀ (th : HostThread) (s : State) (st : Stmt) (item : HostItem), th.prog[th.pc]? = some st → st.item = some item →
    step { s with events := .host item :: s.events } = .next (th.step s).2

/-- The digest procedure as a host program and as accesses are the same: the program's base statements that are accesses are, in order, the
host items (commands in their B form) of the procedure in which no poll sees BUSY (each `wait` then reads STATUS once); both send nothing for a message that is too
large (R89, R90, R202, R204). -/
def Obligations.DigestProgramMakesTheAccessesOfTheProcedure : Prop :=
  ∀ (start : DigestStart) (readout : Readout) (m : List Byte),
    (∀ sig : HostSignal, digestProgram start readout m = .error sig ↔
      digestProcedure start readout (fun _ => 0) m = .error sig) ∧
    ∀ (ps : List Pseudo) (es : List Event), digestProgram start readout m = .ok ps →
      digestProcedure start readout (fun _ => 0) m = .ok es →
        ((expandProgram ps).filterMap Stmt.item).map Event.host = (outsideEvents es).map busForm
end

