-- ==== Sys2Proof/Laws/State.lean ====
section
/-! SUPPORT. What each named update of the state leaves in each field: one lemma per field per update, true by `rfl`, so that no proof
unfolds a record update. -/

namespace Sys2Proof.Machine

@[simp] theorem State.raise_h (e : ErrFlag) (s : State) : (s.raise e).h = s.h := rfl
@[simp] theorem State.raise_msg (e : ErrFlag) (s : State) : (s.raise e).msg = s.msg := rfl
@[simp] theorem State.raise_outb (e : ErrFlag) (s : State) : (s.raise e).outb = s.outb := rfl
@[simp] theorem State.raise_outlen (e : ErrFlag) (s : State) : (s.raise e).outlen = s.outlen := rfl
@[simp] theorem State.raise_pend (e : ErrFlag) (s : State) : (s.raise e).pend = s.pend := rfl
@[simp] theorem State.raise_errAddr (e : ErrFlag) (s : State) : (s.raise e).errAddr = (s.errAddr || decide (e = .addr)) := rfl
@[simp] theorem State.raise_errBusy (e : ErrFlag) (s : State) : (s.raise e).errBusy = (s.errBusy || decide (e = .busy)) := rfl
@[simp] theorem State.raise_errCmd (e : ErrFlag) (s : State) : (s.raise e).errCmd = (s.errCmd || decide (e = .cmd)) := rfl
@[simp] theorem State.raise_errFmt (e : ErrFlag) (s : State) : (s.raise e).errFmt = (s.errFmt || decide (e = .fmt)) := rfl
@[simp] theorem State.raise_reads (e : ErrFlag) (s : State) : (s.raise e).reads = s.reads := rfl
@[simp] theorem State.raise_events (e : ErrFlag) (s : State) : (s.raise e).events = s.events := rfl

@[simp] theorem State.clearErrors_h (s : State) : (s.clearErrors).h = s.h := rfl
@[simp] theorem State.clearErrors_msg (s : State) : (s.clearErrors).msg = s.msg := rfl
@[simp] theorem State.clearErrors_outb (s : State) : (s.clearErrors).outb = s.outb := rfl
@[simp] theorem State.clearErrors_outlen (s : State) : (s.clearErrors).outlen = s.outlen := rfl
@[simp] theorem State.clearErrors_pend (s : State) : (s.clearErrors).pend = s.pend := rfl
@[simp] theorem State.clearErrors_errAddr (s : State) : (s.clearErrors).errAddr = false := rfl
@[simp] theorem State.clearErrors_errBusy (s : State) : (s.clearErrors).errBusy = false := rfl
@[simp] theorem State.clearErrors_errCmd (s : State) : (s.clearErrors).errCmd = false := rfl
@[simp] theorem State.clearErrors_errFmt (s : State) : (s.clearErrors).errFmt = false := rfl
@[simp] theorem State.clearErrors_reads (s : State) : (s.clearErrors).reads = s.reads := rfl
@[simp] theorem State.clearErrors_events (s : State) : (s.clearErrors).events = s.events := rfl

@[simp] theorem State.clearOut_h (s : State) : (s.clearOut).h = s.h := rfl
@[simp] theorem State.clearOut_msg (s : State) : (s.clearOut).msg = s.msg := rfl
@[simp] theorem State.clearOut_outb (s : State) : (s.clearOut).outb = Vector.replicate 64 0#8 := rfl
@[simp] theorem State.clearOut_outlen (s : State) : (s.clearOut).outlen = 0#8 := rfl
@[simp] theorem State.clearOut_pend (s : State) : (s.clearOut).pend = s.pend := rfl
@[simp] theorem State.clearOut_errAddr (s : State) : (s.clearOut).errAddr = s.errAddr := rfl
@[simp] theorem State.clearOut_errBusy (s : State) : (s.clearOut).errBusy = s.errBusy := rfl
@[simp] theorem State.clearOut_errCmd (s : State) : (s.clearOut).errCmd = s.errCmd := rfl
@[simp] theorem State.clearOut_errFmt (s : State) : (s.clearOut).errFmt = s.errFmt := rfl
@[simp] theorem State.clearOut_reads (s : State) : (s.clearOut).reads = s.reads := rfl
@[simp] theorem State.clearOut_events (s : State) : (s.clearOut).events = s.events := rfl

@[simp] theorem State.loadIv_h (s : State) : (s.loadIv).h = iv := rfl
@[simp] theorem State.loadIv_msg (s : State) : (s.loadIv).msg = s.msg := rfl
@[simp] theorem State.loadIv_outb (s : State) : (s.loadIv).outb = s.outb := rfl
@[simp] theorem State.loadIv_outlen (s : State) : (s.loadIv).outlen = s.outlen := rfl
@[simp] theorem State.loadIv_pend (s : State) : (s.loadIv).pend = s.pend := rfl
@[simp] theorem State.loadIv_errAddr (s : State) : (s.loadIv).errAddr = s.errAddr := rfl
@[simp] theorem State.loadIv_errBusy (s : State) : (s.loadIv).errBusy = s.errBusy := rfl
@[simp] theorem State.loadIv_errCmd (s : State) : (s.loadIv).errCmd = s.errCmd := rfl
@[simp] theorem State.loadIv_errFmt (s : State) : (s.loadIv).errFmt = s.errFmt := rfl
@[simp] theorem State.loadIv_reads (s : State) : (s.loadIv).reads = s.reads := rfl
@[simp] theorem State.loadIv_events (s : State) : (s.loadIv).events = s.events := rfl

@[simp] theorem State.setPend_h (p : Pending) (s : State) : (s.setPend p).h = s.h := rfl
@[simp] theorem State.setPend_msg (p : Pending) (s : State) : (s.setPend p).msg = s.msg := rfl
@[simp] theorem State.setPend_outb (p : Pending) (s : State) : (s.setPend p).outb = s.outb := rfl
@[simp] theorem State.setPend_outlen (p : Pending) (s : State) : (s.setPend p).outlen = s.outlen := rfl
@[simp] theorem State.setPend_pend (p : Pending) (s : State) : (s.setPend p).pend = p := rfl
@[simp] theorem State.setPend_errAddr (p : Pending) (s : State) : (s.setPend p).errAddr = s.errAddr := rfl
@[simp] theorem State.setPend_errBusy (p : Pending) (s : State) : (s.setPend p).errBusy = s.errBusy := rfl
@[simp] theorem State.setPend_errCmd (p : Pending) (s : State) : (s.setPend p).errCmd = s.errCmd := rfl
@[simp] theorem State.setPend_errFmt (p : Pending) (s : State) : (s.setPend p).errFmt = s.errFmt := rfl
@[simp] theorem State.setPend_reads (p : Pending) (s : State) : (s.setPend p).reads = s.reads := rfl
@[simp] theorem State.setPend_events (p : Pending) (s : State) : (s.setPend p).events = s.events := rfl

@[simp] theorem State.setMsg_h (i : Fin 16) (v : Word) (s : State) : (s.setMsg i v).h = s.h := rfl
@[simp] theorem State.setMsg_msg (i : Fin 16) (v : Word) (s : State) : (s.setMsg i v).msg = s.msg.set i.val v := rfl
@[simp] theorem State.setMsg_outb (i : Fin 16) (v : Word) (s : State) : (s.setMsg i v).outb = s.outb := rfl
@[simp] theorem State.setMsg_outlen (i : Fin 16) (v : Word) (s : State) : (s.setMsg i v).outlen = s.outlen := rfl
@[simp] theorem State.setMsg_pend (i : Fin 16) (v : Word) (s : State) : (s.setMsg i v).pend = s.pend := rfl
@[simp] theorem State.setMsg_errAddr (i : Fin 16) (v : Word) (s : State) : (s.setMsg i v).errAddr = s.errAddr := rfl
@[simp] theorem State.setMsg_errBusy (i : Fin 16) (v : Word) (s : State) : (s.setMsg i v).errBusy = s.errBusy := rfl
@[simp] theorem State.setMsg_errCmd (i : Fin 16) (v : Word) (s : State) : (s.setMsg i v).errCmd = s.errCmd := rfl
@[simp] theorem State.setMsg_errFmt (i : Fin 16) (v : Word) (s : State) : (s.setMsg i v).errFmt = s.errFmt := rfl
@[simp] theorem State.setMsg_reads (i : Fin 16) (v : Word) (s : State) : (s.setMsg i v).reads = s.reads := rfl
@[simp] theorem State.setMsg_events (i : Fin 16) (v : Word) (s : State) : (s.setMsg i v).events = s.events := rfl

@[simp] theorem State.record_h (off : BitVec 8) (size : BitVec 3) (v : Word) (s : State) : (s.record off size v).h = s.h := rfl
@[simp] theorem State.record_msg (off : BitVec 8) (size : BitVec 3) (v : Word) (s : State) : (s.record off size v).msg = s.msg := rfl
@[simp] theorem State.record_outb (off : BitVec 8) (size : BitVec 3) (v : Word) (s : State) : (s.record off size v).outb = s.outb := rfl
@[simp] theorem State.record_outlen (off : BitVec 8) (size : BitVec 3) (v : Word) (s : State) : (s.record off size v).outlen = s.outlen := rfl
@[simp] theorem State.record_pend (off : BitVec 8) (size : BitVec 3) (v : Word) (s : State) : (s.record off size v).pend = s.pend := rfl
@[simp] theorem State.record_errAddr (off : BitVec 8) (size : BitVec 3) (v : Word) (s : State) : (s.record off size v).errAddr = s.errAddr := rfl
@[simp] theorem State.record_errBusy (off : BitVec 8) (size : BitVec 3) (v : Word) (s : State) : (s.record off size v).errBusy = s.errBusy := rfl
@[simp] theorem State.record_errCmd (off : BitVec 8) (size : BitVec 3) (v : Word) (s : State) : (s.record off size v).errCmd = s.errCmd := rfl
@[simp] theorem State.record_errFmt (off : BitVec 8) (size : BitVec 3) (v : Word) (s : State) : (s.record off size v).errFmt = s.errFmt := rfl
@[simp] theorem State.record_reads (off : BitVec 8) (size : BitVec 3) (v : Word) (s : State) : (s.record off size v).reads = s.reads ++ [{ off := off, size := size, value := v }] := rfl
@[simp] theorem State.record_events (off : BitVec 8) (size : BitVec 3) (v : Word) (s : State) : (s.record off size v).events = s.events := rfl

@[simp] theorem State.applyReset_h (s : State) : (s.applyReset).h = iv := rfl
@[simp] theorem State.applyReset_msg (s : State) : (s.applyReset).msg = Vector.replicate 16 0#32 := rfl
@[simp] theorem State.applyReset_outb (s : State) : (s.applyReset).outb = Vector.replicate 64 0#8 := rfl
@[simp] theorem State.applyReset_outlen (s : State) : (s.applyReset).outlen = 0#8 := rfl
@[simp] theorem State.applyReset_pend (s : State) : (s.applyReset).pend = .none := rfl
@[simp] theorem State.applyReset_errAddr (s : State) : (s.applyReset).errAddr = false := rfl
@[simp] theorem State.applyReset_errBusy (s : State) : (s.applyReset).errBusy = false := rfl
@[simp] theorem State.applyReset_errCmd (s : State) : (s.applyReset).errCmd = false := rfl
@[simp] theorem State.applyReset_errFmt (s : State) : (s.applyReset).errFmt = false := rfl
@[simp] theorem State.applyReset_reads (s : State) : (s.applyReset).reads = s.reads := rfl
@[simp] theorem State.applyReset_events (s : State) : (s.applyReset).events = s.events := rfl

@[simp] theorem compressComplete_h (s : State) : (compressComplete s).h = compress s.h s.msg := rfl
@[simp] theorem compressComplete_msg (s : State) : (compressComplete s).msg = s.msg := rfl
@[simp] theorem compressComplete_outb (s : State) : (compressComplete s).outb = Vector.replicate 64 0#8 := rfl
@[simp] theorem compressComplete_outlen (s : State) : (compressComplete s).outlen = 0#8 := rfl
@[simp] theorem compressComplete_pend (s : State) : (compressComplete s).pend = s.pend := rfl
@[simp] theorem compressComplete_errAddr (s : State) : (compressComplete s).errAddr = s.errAddr := rfl
@[simp] theorem compressComplete_errBusy (s : State) : (compressComplete s).errBusy = s.errBusy := rfl
@[simp] theorem compressComplete_errCmd (s : State) : (compressComplete s).errCmd = s.errCmd := rfl
@[simp] theorem compressComplete_errFmt (s : State) : (compressComplete s).errFmt = s.errFmt := rfl
@[simp] theorem compressComplete_reads (s : State) : (compressComplete s).reads = s.reads := rfl
@[simp] theorem compressComplete_events (s : State) : (compressComplete s).events = s.events := rfl

@[simp] theorem encodeHexComplete_h (s : State) : (encodeHexComplete s).h = s.h := rfl
@[simp] theorem encodeHexComplete_msg (s : State) : (encodeHexComplete s).msg = s.msg := rfl
@[simp] theorem encodeHexComplete_outb (s : State) : (encodeHexComplete s).outb = hexOutput s.h := rfl
@[simp] theorem encodeHexComplete_outlen (s : State) : (encodeHexComplete s).outlen = 64#8 := rfl
@[simp] theorem encodeHexComplete_pend (s : State) : (encodeHexComplete s).pend = s.pend := rfl
@[simp] theorem encodeHexComplete_errAddr (s : State) : (encodeHexComplete s).errAddr = s.errAddr := rfl
@[simp] theorem encodeHexComplete_errBusy (s : State) : (encodeHexComplete s).errBusy = s.errBusy := rfl
@[simp] theorem encodeHexComplete_errCmd (s : State) : (encodeHexComplete s).errCmd = s.errCmd := rfl
@[simp] theorem encodeHexComplete_errFmt (s : State) : (encodeHexComplete s).errFmt = s.errFmt := rfl
@[simp] theorem encodeHexComplete_reads (s : State) : (encodeHexComplete s).reads = s.reads := rfl
@[simp] theorem encodeHexComplete_events (s : State) : (encodeHexComplete s).events = s.events := rfl

@[simp] theorem encodeB64Complete_h (s : State) : (encodeB64Complete s).h = s.h := rfl
@[simp] theorem encodeB64Complete_msg (s : State) : (encodeB64Complete s).msg = s.msg := rfl
@[simp] theorem encodeB64Complete_outb (s : State) : (encodeB64Complete s).outb = b64Output s.h := rfl
@[simp] theorem encodeB64Complete_outlen (s : State) : (encodeB64Complete s).outlen = 44#8 := rfl
@[simp] theorem encodeB64Complete_pend (s : State) : (encodeB64Complete s).pend = s.pend := rfl
@[simp] theorem encodeB64Complete_errAddr (s : State) : (encodeB64Complete s).errAddr = s.errAddr := rfl
@[simp] theorem encodeB64Complete_errBusy (s : State) : (encodeB64Complete s).errBusy = s.errBusy := rfl
@[simp] theorem encodeB64Complete_errCmd (s : State) : (encodeB64Complete s).errCmd = s.errCmd := rfl
@[simp] theorem encodeB64Complete_errFmt (s : State) : (encodeB64Complete s).errFmt = s.errFmt := rfl
@[simp] theorem encodeB64Complete_reads (s : State) : (encodeB64Complete s).reads = s.reads := rfl
@[simp] theorem encodeB64Complete_events (s : State) : (encodeB64Complete s).events = s.events := rfl

@[simp] theorem State.clearOut_clearOut (s : State) : s.clearOut.clearOut = s.clearOut := rfl
@[simp] theorem State.clearErrors_clearErrors (s : State) : s.clearErrors.clearErrors = s.clearErrors := rfl

/-- One flag after raising one flag. -/
@[simp] theorem State.raise_flag (e f : ErrFlag) (s : State) : (s.raise e).flag f = (s.flag f || decide (e = f)) := by
  cases f <;> rfl

/-- Setting a flag that is already 1 leaves the state as it is. -/
theorem State.raise_of_flag (e : ErrFlag) (s : State) (he : s.flag e = true) : s.raise e = s := by
  cases s
  cases e <;> simp_all [State.flag, State.raise]

theorem State.busy_iff (s : State) : s.busy = true ↔ s.pend ≠ .none := by simp [State.busy]

end Sys2Proof.Machine
end

