-- ==== Sys2Proof/Laws/Ops.lean ====
section
/-! SUPPORT. What each shared operation can do, said once: the BUSY gate, the reads, the malformed access, the issue of ENCODE, the
dispatch of a command word, the ENGINE step, one step of the machine. -/

namespace Sys2Proof.Machine

theorem whenIdle_idle {f : State → State} {s : State} (hp : s.pend = .none) : whenIdle f s = f s := by
  simp [whenIdle, hp]

theorem whenIdle_busy {f : State → State} {s : State} (hp : s.pend ≠ .none) : whenIdle f s = s.raise .busy := by
  simp [whenIdle, hp]

/-- The gate drops the action with ERR_BUSY, or lets it happen while idle. -/
theorem whenIdle_cases (f : State → State) (s : State) :
    (s.pend = .none ∧ whenIdle f s = f s) ∨ (s.pend ≠ .none ∧ whenIdle f s = s.raise .busy) := by
  by_cases hp : s.pend = .none
  · exact .inl ⟨hp, whenIdle_idle hp⟩
  · exact .inr ⟨hp, whenIdle_busy hp⟩

theorem readWhenIdle_idle {off : BitVec 8} {v : Word} {s : State} (hp : s.pend = .none) :
    readWhenIdle off v s = s.record off 4#3 v := by simp [readWhenIdle, hp]

theorem readWhenIdle_busy {off : BitVec 8} {v : Word} {s : State} (hp : s.pend ≠ .none) :
    readWhenIdle off v s = (s.raise .busy).record off 4#3 0#32 := by simp [readWhenIdle, hp]

/-- A malformed access raises ERR_ADDR, and a read records 0. -/
theorem badAccess_cases (x : Xfer) (size : BitVec 3) (off : BitVec 8) (s : State) :
    (x = .read ∧ badAccess x size off s = (s.raise .addr).record off size 0#32) ∨
      ((∃ v, x = .write v) ∧ badAccess x size off s = s.raise .addr) := by
  cases x with
  | read => exact .inl ⟨rfl, rfl⟩
  | write v => exact .inr ⟨⟨v, rfl⟩, rfl⟩

/-- ENCODE's issue sets PEND for the two formats, and otherwise clears the output and raises ERR_FMT. -/
theorem encodeIssue_cases (fmt : BitVec 4) (s : State) :
    (fmt = 0#4 ∧ encodeIssue fmt s = s.setPend .encodeHex) ∨ (fmt = 1#4 ∧ encodeIssue fmt s = s.setPend .encodeB64) ∨
      (fmt ≠ 0#4 ∧ fmt ≠ 1#4 ∧ encodeIssue fmt s = s.clearOut.raise .fmt) := by
  unfold encodeIssue
  split
  · exact .inl ⟨‹_›, rfl⟩
  · split
    · exact .inr (.inl ⟨‹_›, rfl⟩)
    · exact .inr (.inr ⟨‹_›, ‹_›, rfl⟩)

/-- Everything an accepted command can do in its write step. -/
theorem perform_cases (c : Command) (s : State) :
    perform c s = s ∨ perform c s = s.raise .cmd ∨ perform c s = s.loadIv.clearOut ∨ perform c s = s.clearErrors ∨
      perform c s = s.setPend .compress ∨ perform c s = s.setPend .encodeHex ∨ perform c s = s.setPend .encodeB64 ∨
      perform c s = s.clearOut.raise .fmt := by
  cases c with
  | illegal => exact .inr (.inl rfl)
  | nop => exact .inl rfl
  | init => exact .inr (.inr (.inl rfl))
  | compress => exact .inr (.inr (.inr (.inr (.inl rfl))))
  | clrErr => exact .inr (.inr (.inr (.inl rfl)))
  | encode fmt =>
    obtain ⟨-, h⟩ | ⟨-, h⟩ | ⟨-, -, h⟩ := encodeIssue_cases fmt s <;> simp [perform, h]

/-- The ENGINE step by the pending operation (R126). -/
theorem engineStep_cases (s : State) :
    (s.pend = .none ∧ engineStep s = s) ∨ (s.pend = .compress ∧ engineStep s = (compressComplete s).setPend .none) ∨
      (s.pend = .encodeHex ∧ engineStep s = (encodeHexComplete s).setPend .none) ∨
      (s.pend = .encodeB64 ∧ engineStep s = (encodeB64Complete s).setPend .none) := by
  unfold engineStep
  split
  · exact .inl ⟨‹_›, rfl⟩
  · exact .inr (.inl ⟨‹_›, rfl⟩)
  · exact .inr (.inr (.inl ⟨‹_›, rfl⟩))
  · exact .inr (.inr (.inr ⟨‹_›, rfl⟩))

@[simp] theorem engineStep_pend (s : State) : (engineStep s).pend = .none := by
  obtain ⟨hp, h⟩ | ⟨-, h⟩ | ⟨-, h⟩ | ⟨-, h⟩ := engineStep_cases s
  · rw [h, hp]
  all_goals simp [h]

@[simp] theorem engineStep_events (s : State) : (engineStep s).events = s.events := by
  obtain ⟨-, h⟩ | ⟨-, h⟩ | ⟨-, h⟩ | ⟨-, h⟩ := engineStep_cases s <;>
    simp [h]

@[simp] theorem engineStep_reads (s : State) : (engineStep s).reads = s.reads := by
  obtain ⟨-, h⟩ | ⟨-, h⟩ | ⟨-, h⟩ | ⟨-, h⟩ := engineStep_cases s <;>
    simp [h]

/-- Every instruction runs: no arm of `exec` faults or refuses. -/
theorem exec_next (i : Instr) (s : State) : ∃ t, exec i s = .next t := by
  cases i <;> exact ⟨_, rfl⟩

/-- A host step runs whatever is on the bus. -/
theorem hostStep_next (item : HostItem) (s : State) : ∃ t, hostStep item s = .next t := by
  unfold hostStep
  split
  · exact exec_next _ _
  · exact ⟨_, rfl⟩
  · exact ⟨_, rfl⟩

/-- The host step of a decoded item is the meaning of its instruction. -/
theorem hostStep_of_decode {item : HostItem} {i : Instr} (hd : decode item = .ok i) (s : State) :
    hostStep item s = exec i s := by
  cases item <;> simp [hostStep, hd]

theorem step_of_nil {s : State} (he : s.events = []) : step s = .next (engineStep s) := by simp [step, he]

theorem step_of_cons {s : State} {e : Event} {es : List Event} (he : s.events = e :: es) :
    step s = eventStep e { s with events := es } := by simp [step, he]

/-- Everything a step can be: an ENGINE step with no event left, or the step of the next event. -/
theorem step_cases {s t : State} (hst : step s = .next t) :
    (s.events = [] ∧ t = engineStep s) ∨
      (∃ es, s.events = .engine :: es ∧ t = engineStep { s with events := es }) ∨
      (∃ es, s.events = .reset :: es ∧ t = State.applyReset { s with events := es }) ∨
      (∃ item es, s.events = .host item :: es ∧ hostStep item { s with events := es } = .next t) := by
  unfold step at hst
  split at hst
  · next he =>
    cases hst
    exact .inl ⟨he, rfl⟩
  · next e es he =>
    cases e with
    | host item => exact .inr (.inr (.inr ⟨item, es, he, hst⟩))
    | engine =>
      cases hst
      exact .inr (.inl ⟨es, he, rfl⟩)
    | reset =>
      cases hst
      exact .inr (.inr (.inl ⟨es, he, rfl⟩))

/-- Everything a host step can leave: a dropped access, an accepted command, a MSG write, a refused write, or a read's record over
the state or over the state with one flag raised. -/
inductive HostEffect (s : State) : State → Prop where
  | dropped (hp : s.pend ≠ .none) : HostEffect s (s.raise .busy)
  | command (hp : s.pend = .none) (c : Command) : HostEffect s (perform c s)
  | msgWrite (hp : s.pend = .none) (i : Fin 16) (v : Word) : HostEffect s (s.setMsg i v)
  | addrError : HostEffect s (s.raise .addr)
  | quiet (off : BitVec 8) (size : BitVec 3) (v : Word) : HostEffect s (s.record off size v)
  | addrRead (off : BitVec 8) (size : BitVec 3) (v : Word) : HostEffect s ((s.raise .addr).record off size v)
  | busyRead (hp : s.pend ≠ .none) (off : BitVec 8) (size : BitVec 3) (v : Word) :
      HostEffect s ((s.raise .busy).record off size v)

theorem whenIdle_perform_effect (c : Command) (s : State) : HostEffect s (whenIdle (perform c) s) := by
  obtain ⟨hp, h⟩ | ⟨hp, h⟩ := whenIdle_cases (perform c) s <;> rw [h]
  · exact .command hp c
  · exact .dropped hp

theorem whenIdle_setMsg_effect (i : Fin 16) (v : Word) (s : State) : HostEffect s (whenIdle (State.setMsg i v) s) := by
  obtain ⟨hp, h⟩ | ⟨hp, h⟩ := whenIdle_cases (State.setMsg i v) s <;> rw [h]
  · exact .msgWrite hp i v
  · exact .dropped hp

theorem readWhenIdle_effect (off : BitVec 8) (v : Word) (s : State) : HostEffect s (readWhenIdle off v s) := by
  by_cases hp : s.pend = .none
  · rw [readWhenIdle_idle hp]
    exact .quiet off _ v
  · rw [readWhenIdle_busy hp]
    exact .busyRead hp off _ _

theorem badAccess_effect (x : Xfer) (size : BitVec 3) (off : BitVec 8) (s : State) :
    HostEffect s (badAccess x size off s) := by
  obtain ⟨-, h⟩ | ⟨-, h⟩ := badAccess_cases x size off s <;> rw [h]
  · exact .addrRead off size _
  · exact .addrError

theorem exec_effect (i : Instr) (s : State) : ∃ t, exec i s = .next t ∧ HostEffect s t := by
  cases i with
  | nop => exact ⟨_, rfl, whenIdle_perform_effect .nop s⟩
  | init => exact ⟨_, rfl, whenIdle_perform_effect .init s⟩
  | compress => exact ⟨_, rfl, whenIdle_perform_effect .compress s⟩
  | encodeHex => exact ⟨_, rfl, whenIdle_perform_effect (.encode 0#4) s⟩
  | encodeB64 => exact ⟨_, rfl, whenIdle_perform_effect (.encode 1#4) s⟩
  | encodeBadFmt fmt => exact ⟨_, rfl, whenIdle_perform_effect (.encode fmt) s⟩
  | clrErr => exact ⟨_, rfl, whenIdle_perform_effect .clrErr s⟩
  | illegal _ _ _ => exact ⟨_, rfl, whenIdle_perform_effect .illegal s⟩
  | badSize1 x off => exact ⟨_, rfl, badAccess_effect x _ off s⟩
  | badSize2 x off => exact ⟨_, rfl, badAccess_effect x _ off s⟩
  | badAlign1 x off => exact ⟨_, rfl, badAccess_effect x _ off s⟩
  | badAlign2 x off => exact ⟨_, rfl, badAccess_effect x _ off s⟩
  | wrCmd w => exact ⟨_, rfl, whenIdle_perform_effect (decodeCmd w) s⟩
  | rdCmd => exact ⟨_, rfl, .quiet _ _ _⟩
  | rdStatus => exact ⟨_, rfl, .quiet _ _ _⟩
  | wrStatus _ => exact ⟨_, rfl, .addrError⟩
  | rdId => exact ⟨_, rfl, .quiet _ _ _⟩
  | wrId _ => exact ⟨_, rfl, .addrError⟩
  | unmapped0C x => exact ⟨_, rfl, badAccess_effect x _ _ s⟩
  | unmapped10 x off => exact ⟨_, rfl, badAccess_effect x _ off s⟩
  | unmapped20 x off => exact ⟨_, rfl, badAccess_effect x _ off s⟩
  | wrMsg i v => exact ⟨_, rfl, whenIdle_setMsg_effect i v s⟩
  | rdMsg i => exact ⟨_, rfl, readWhenIdle_effect _ _ s⟩
  | rdHash j => exact ⟨_, rfl, readWhenIdle_effect _ _ s⟩
  | wrHash _ _ => exact ⟨_, rfl, .addrError⟩
  | unmappedA0 x off => exact ⟨_, rfl, badAccess_effect x _ off s⟩
  | rdOut n => exact ⟨_, rfl, readWhenIdle_effect _ _ s⟩
  | wrOut _ _ => exact ⟨_, rfl, .addrError⟩

/-- A gated read in the form R181 gives it. -/
theorem gatedRead_effect (off : BitVec 8) (size : BitVec 3) (v : Word) (s : State) :
    HostEffect s ((if s.pend ≠ .none then (0#32, s.raise .busy) else (v, s)).2.record off size
      (if s.pend ≠ .none then (0#32, s.raise .busy) else (v, s)).1) := by
  by_cases hp : s.pend = .none
  · rw [if_neg (not_not.mpr hp)]
    exact .quiet off size v
  · rw [if_pos hp]
    exact .busyRead hp off size _

/-- The general rules R180 and R181 have no other effect than the rows. -/
theorem busAccess_effect (x : Xfer) (size : BitVec 3) (off : BitVec 8) (s : State) :
    HostEffect s (busAccess x size off s) := by
  cases x with
  | write v =>
    simp only [busAccess, busWrite]
    split
    iterate 5 exact .addrError
    · obtain ⟨hp, h⟩ | ⟨hp, h⟩ := whenIdle_cases (cmdWrite v) s <;> rw [h]
      · exact whenIdle_perform_effect (decodeCmd v) s
      · exact .dropped hp
    · exact whenIdle_setMsg_effect _ v s
  | read =>
    simp only [busAccess, busRead]
    split
    · exact .addrRead off size _
    iterate 3 exact .quiet off size _
    iterate 3 exact gatedRead_effect off size _ s

/-- A host step has one of these effects. -/
theorem hostStep_effect {item : HostItem} {s t : State} (hst : hostStep item s = .next t) : HostEffect s t := by
  cases hd : decode item with
  | ok i =>
    obtain ⟨t', ht', he⟩ := exec_effect i s
    rw [hostStep_of_decode hd, ht'] at hst
    cases hst
    exact he
  | error r =>
    cases item with
    | command w =>
      simp only [hostStep, hd] at hst
      cases hst
      exact whenIdle_perform_effect _ s
    | access key data =>
      simp only [hostStep, hd] at hst
      cases hst
      exact busAccess_effect _ _ _ s

theorem perform_events (c : Command) (s : State) : (perform c s).events = s.events := by
  obtain h | h | h | h | h | h | h | h := perform_cases c s <;> simp [h]

/-- A host step does not touch the events to come. -/
theorem HostEffect.events {s t : State} (he : HostEffect s t) : t.events = s.events := by
  cases he with
  | command _ c => exact perform_events c s
  | _ => rfl

end Sys2Proof.Machine
end

