-- ==== Sys2Proof/Laws/Decode.lean ====
section
/-! SUPPORT. Decoding taken apart: the three fields of a command word, the three fields of an access key, the commands a word can stand
for, and the row of the table a key falls in. Facts about all 4096 keys are decided by the kernel once, here. -/

namespace Sys2Proof

/-! ## The fields of a command word (R81) -/

theorem op_field (op fmt : BitVec 4) (rsv : BitVec 24) : (rsv ++ fmt ++ op).extractLsb' 0 4 = op := by
  ext i hi
  simp
  grind

theorem fmt_field (op fmt : BitVec 4) (rsv : BitVec 24) : (rsv ++ fmt ++ op).extractLsb' 4 4 = fmt := by
  ext i hi
  simp
  grind

theorem rsv_field (op fmt : BitVec 4) (rsv : BitVec 24) : (rsv ++ fmt ++ op).extractLsb' 8 24 = rsv := by
  ext i hi
  simp
  grind

/-- A command word is its three fields. -/
theorem word_fields (w : Word) : w = w.extractLsb' 8 24 ++ w.extractLsb' 4 4 ++ w.extractLsb' 0 4 := by
  ext i hi
  simp
  grind

/-- A word whose RSV is zero is below 256. -/
theorem lt_256_of_rsv {w : Word} (h : w.extractLsb' 8 24 = 0#24) : w.toNat < 256 := by
  have hn := congrArg BitVec.toNat h
  simp [Nat.shiftRight_eq_div_pow] at hn
  have := w.isLt
  omega

/-- What holds of the 256 words with a zero RSV holds of a word below 256. -/
theorem forall_lt_256 {P : Word → Prop} (h : ∀ n : Fin 256, P (BitVec.ofNat 32 n.val)) {w : Word} (hw : w.toNat < 256) :
    P w := by
  have := h ⟨w.toNat, hw⟩
  simpa using this

/-- A word with a nonzero RSV is ILLEGAL (R84, R85). -/
theorem decodeCmd_of_rsv {w : Word} (h : w.extractLsb' 8 24 ≠ 0#24) : decodeCmd w = .illegal := by
  simp only [decodeCmd, if_pos h]

/-- A word that is not ILLEGAL is below 256. -/
theorem lt_256_of_decodeCmd {w : Word} (h : decodeCmd w ≠ .illegal) : w.toNat < 256 := by
  by_contra hn
  exact h (decodeCmd_of_rsv fun h8 => hn (lt_256_of_rsv h8))

/-- The one word of each command without a free field. -/
theorem word_of_init {w : Word} (h : decodeCmd w = .init) : w = 0x00000001#32 := by
  have hl := lt_256_of_decodeCmd (w := w) (by simp [h])
  revert h
  refine forall_lt_256 (P := fun w => decodeCmd w = .init → w = 0x00000001#32) ?_ hl
  decide +kernel

theorem word_of_compress {w : Word} (h : decodeCmd w = .compress) : w = 0x00000002#32 := by
  have hl := lt_256_of_decodeCmd (w := w) (by simp [h])
  revert h
  refine forall_lt_256 (P := fun w => decodeCmd w = .compress → w = 0x00000002#32) ?_ hl
  decide +kernel

theorem word_of_clrErr {w : Word} (h : decodeCmd w = .clrErr) : w = 0x00000004#32 := by
  have hl := lt_256_of_decodeCmd (w := w) (by simp [h])
  revert h
  refine forall_lt_256 (P := fun w => decodeCmd w = .clrErr → w = 0x00000004#32) ?_ hl
  decide +kernel

/-- The word of an ENCODE is `FMT << 4 | 3`. -/
theorem word_of_encode {w : Word} {fmt : BitVec 4} (h : decodeCmd w = .encode fmt) : w = 0#24 ++ fmt ++ 3#4 := by
  simp only [decodeCmd] at h
  split_ifs at h with h8 h0
  cases h
  have hw := word_fields w
  rw [not_not.mp h8, h0] at hw
  exact hw

/-! ## The fields of an access key (R88) -/

@[simp] theorem accessKey_isWrite (b : Bool) (size : BitVec 3) (off : BitVec 8) : keyIsWrite (accessKey b size off) = b := by
  unfold keyIsWrite accessKey
  rw [BitVec.getLsbD_append, BitVec.getLsbD_append]
  simp

@[simp] theorem accessKey_size (b : Bool) (size : BitVec 3) (off : BitVec 8) : keySize (accessKey b size off) = size := by
  unfold keySize accessKey
  ext i hi
  simp
  grind

@[simp] theorem accessKey_off (b : Bool) (size : BitVec 3) (off : BitVec 8) : keyOff (accessKey b size off) = off := by
  unfold keyOff accessKey
  ext i hi
  simp
  grind

/-- A key is its three fields. -/
theorem key_fields (key : BitVec 12) : accessKey (keyIsWrite key) (keySize key) (keyOff key) = key := by
  unfold accessKey keyIsWrite keySize keyOff
  ext i hi
  simp
  grind

/-! ## The B row of a key -/

/-- The number of the table's B row a key falls in, 0 to 19 in the table's order; 20 for the sizes without a row. -/
def keyRow (key : BitVec 12) : Nat :=
  if key &&& 0x700#12 = 0x100#12 then 0
  else if key &&& 0x700#12 = 0x200#12 then 1
  else if key &&& 0x701#12 = 0x401#12 then 2
  else if key &&& 0x703#12 = 0x402#12 then 3
  else if key = 0xC00#12 then 4
  else if key = 0x400#12 then 5
  else if key = 0x404#12 then 6
  else if key = 0xC04#12 then 7
  else if key = 0x408#12 then 8
  else if key = 0xC08#12 then 9
  else if key &&& 0x7FF#12 = 0x40C#12 then 10
  else if key &&& 0x7F3#12 = 0x410#12 then 11
  else if key &&& 0x7E3#12 = 0x420#12 then 12
  else if key &&& 0xFC3#12 = 0xC40#12 then 13
  else if key &&& 0xFC3#12 = 0x440#12 then 14
  else if key &&& 0xFE3#12 = 0x480#12 then 15
  else if key &&& 0xFE3#12 = 0xC80#12 then 16
  else if key &&& 0x7E3#12 = 0x4A0#12 then 17
  else if key &&& 0xFC3#12 = 0x4C0#12 then 18
  else if key &&& 0xFC3#12 = 0xCC0#12 then 19
  else 20

/-- The instruction of a B row, from the row's number. -/
def rowInstr (row : Nat) (key : BitVec 12) (data : Word) : Except DecodeReject Instr :=
  match row with
  | 0 => .ok (.badSize1 (xferOf key data) (keyOff key))
  | 1 => .ok (.badSize2 (xferOf key data) (keyOff key))
  | 2 => .ok (.badAlign1 (xferOf key data) (keyOff key))
  | 3 => .ok (.badAlign2 (xferOf key data) (keyOff key))
  | 4 => .ok (.wrCmd data)
  | 5 => .ok .rdCmd
  | 6 => .ok .rdStatus
  | 7 => .ok (.wrStatus data)
  | 8 => .ok .rdId
  | 9 => .ok (.wrId data)
  | 10 => .ok (.unmapped0C (xferOf key data))
  | 11 => .ok (.unmapped10 (xferOf key data) (keyOff key))
  | 12 => .ok (.unmapped20 (xferOf key data) (keyOff key))
  | 13 => .ok (.wrMsg (Fin.ofNat 16 (regIndex 0x40#8 (keyOff key))) data)
  | 14 => .ok (.rdMsg (Fin.ofNat 16 (regIndex 0x40#8 (keyOff key))))
  | 15 => .ok (.rdHash (Fin.ofNat 8 (regIndex 0x80#8 (keyOff key))))
  | 16 => .ok (.wrHash (Fin.ofNat 8 (regIndex 0x80#8 (keyOff key))) data)
  | 17 => .ok (.unmappedA0 (xferOf key data) (keyOff key))
  | 18 => .ok (.rdOut (Fin.ofNat 16 (regIndex 0xC0#8 (keyOff key))))
  | 19 => .ok (.wrOut (Fin.ofNat 16 (regIndex 0xC0#8 (keyOff key))) data)
  | _ => .error (.sizeNotInTable (keySize key))

theorem rowInstr_ite {p : Prop} [Decidable p] {m n : Nat} {key : BitVec 12} {data : Word} :
    rowInstr (if p then m else n) key data = if p then rowInstr m key data else rowInstr n key data := by
  split <;> rfl

/-- Decoding an access is finding its row. -/
theorem decodeAccessRow_eq (key : BitVec 12) (data : Word) : decodeAccessRow key data = rowInstr (keyRow key) key data := by
  unfold keyRow
  simp only [rowInstr_ite]
  rfl

/-- No key has a row after the last, and the keys without a row are those whose size is none of 1, 2, 4. -/
theorem keyRow_range : ∀ key : BitVec 12,
    keyRow key ≤ 20 ∧ (keyRow key ≠ 20 ↔ keySize key = 1#3 ∨ keySize key = 2#3 ∨ keySize key = 4#3) := by decide +kernel

end Sys2Proof
end

