-- ==== Sys2Proof/Laws/HostAsm.lean ====
section
/-! SUPPORT. The digest procedure as a host program keeps to the freshness R90 asks of the labels of its waits (log 16). -/

namespace Sys2Proof.Machine

theorem blockLabel_inj {a b : Nat} (h : "W" ++ toString a = "W" ++ toString b) : a = b := by
  have hl : (toString a).toList = (toString b).toList := by
    have := congrArg String.toList h
    rw [String.toList_append, String.toList_append] at this
    exact List.append_cancel_left this
  exact Nat.repr_inj.mp (String.toList_inj.mp hl)

theorem blockLabel_ne_encode (a : Nat) : "W" ++ toString a ≠ "E" := by
  intro h
  have := congrArg String.toList h
  simp [String.toList_append] at this

theorem waitLabels_append (ps qs : List Pseudo) : waitLabels (ps ++ qs) = waitLabels ps ++ waitLabels qs :=
  List.filterMap_append

/-- The waits before the blocks are numbered from the first block on. -/
theorem waitLabels_blocksProgram (ws : List (Vector Word 16)) (b : Nat) :
    waitLabels (blocksProgram b ws) = (List.range' b ws.length).map fun k => "W" ++ toString k := by
  induction ws generalizing b with
  | nil => rfl
  | cons w ws ih =>
    rw [blocksProgram, waitLabels_append, ih, List.length_cons, List.range'_succ, List.map_cons]
    rfl

/-- Every wait of the digest procedure has a label of its own. -/
theorem digestProgram_waitsFresh {start : DigestStart} {readout : Readout} {m : List Byte} {ps : List Pseudo}
    (h : digestProgram start readout m = .ok ps) : waitsFresh ps = true := by
  unfold digestProgram at h
  split at h
  · cases h
  · cases h
    have hs : waitLabels (startProgram start) = [] := by cases start <;> rfl
    have hb : waitLabels (blocksProgram 0 (blocks m)) ++ waitLabels [.wait ("W" ++ toString (blocks m).length)] =
        (List.range' 0 ((blocks m).length + 1)).map fun k => "W" ++ toString k := by
      rw [waitLabels_blocksProgram, List.range'_concat, List.map_append]
      simp [waitLabels]
    have hr : waitLabels (readoutProgram readout) = [] ∨ waitLabels (readoutProgram readout) = ["E"] := by
      cases readout
      · exact .inl rfl
      · exact .inr rfl
      · exact .inr rfl
    have hn : ((List.range' 0 ((blocks m).length + 1)).map fun k => "W" ++ toString k).Nodup :=
      List.Nodup.map (fun _ _ h => blockLabel_inj h) List.nodup_range'
    unfold waitsFresh
    rw [decide_eq_true_iff, waitLabels_append, waitLabels_append, waitLabels_append, hs, List.nil_append, hb]
    obtain hr | hr := hr <;> rw [hr]
    · rw [List.append_nil]
      exact hn
    · refine List.nodup_append.mpr ⟨hn, List.nodup_singleton _, ?_⟩
      intro x hx y hy
      obtain ⟨k, -, rfl⟩ := List.mem_map.mp hx
      rw [List.mem_singleton.mp hy]
      exact blockLabel_ne_encode k

end Sys2Proof.Machine
end

