-- ==== Sys2Proof/Laws/PerInstr.lean ====
section
/-! SUPPORT. Laws about an instruction as syntax, one lemma per constructor. `RowMatch`: the raw item a well-formed instruction is
encoded to matches the mask and the match value that its row of spec/opcode_table.json gives. -/

namespace Sys2Proof.Laws

/-- A row of spec/opcode_table.json: its form, its mask and its match value. -/
inductive TableRow where
  | command (mask value : Word)
  | access (mask value : BitVec 12)

/-- A raw item matches a row: the same form, and `bits ∧ mask = value`. -/
def TableRow.admits : TableRow → HostItem → Bool
  | .command mask value, .command w => decide (w &&& mask = value)
  | .access mask value, .access key _ => decide (key &&& mask = value)
  | .command _ _, .access _ _ => false
  | .access _ _, .command _ => false

/-- The row of each instruction, copied from the table. -/
def rowOf : Instr → TableRow
  | .nop => .command 0xFFFFFFFF#32 0x00000000#32
  | .init => .command 0xFFFFFFFF#32 0x00000001#32
  | .compress => .command 0xFFFFFFFF#32 0x00000002#32
  | .encodeHex => .command 0xFFFFFFFF#32 0x00000003#32
  | .encodeB64 => .command 0xFFFFFFFF#32 0x00000013#32
  | .encodeBadFmt _ => .command 0xFFFFFF0F#32 0x00000003#32
  | .clrErr => .command 0xFFFFFFFF#32 0x00000004#32
  | .illegal _ _ _ => .command 0x00000000#32 0x00000000#32
  | .badSize1 _ _ => .access 0x700#12 0x100#12
  | .badSize2 _ _ => .access 0x700#12 0x200#12
  | .badAlign1 _ _ => .access 0x701#12 0x401#12
  | .badAlign2 _ _ => .access 0x703#12 0x402#12
  | .wrCmd _ => .access 0xFFF#12 0xC00#12
  | .rdCmd => .access 0xFFF#12 0x400#12
  | .rdStatus => .access 0xFFF#12 0x404#12
  | .wrStatus _ => .access 0xFFF#12 0xC04#12
  | .rdId => .access 0xFFF#12 0x408#12
  | .wrId _ => .access 0xFFF#12 0xC08#12
  | .unmapped0C _ => .access 0x7FF#12 0x40C#12
  | .unmapped10 _ _ => .access 0x7F3#12 0x410#12
  | .unmapped20 _ _ => .access 0x7E3#12 0x420#12
  | .wrMsg _ _ => .access 0xFC3#12 0xC40#12
  | .rdMsg _ => .access 0xFC3#12 0x440#12
  | .rdHash _ => .access 0xFE3#12 0x480#12
  | .wrHash _ _ => .access 0xFE3#12 0xC80#12
  | .unmappedA0 _ _ => .access 0x7E3#12 0x4A0#12
  | .rdOut _ => .access 0xFC3#12 0x4C0#12
  | .wrOut _ _ => .access 0xFC3#12 0xCC0#12

/-- An access matches a B row when the key of its kind, size and offset does. -/
theorem encodeXfer_admits {mask value : BitVec 12} {size : BitVec 3} {off : BitVec 8} (x : Xfer)
    (hk : ∀ b, accessKey b size off &&& mask = value) :
    (TableRow.access mask value).admits (encodeXfer x size off) = true := by
  cases x with
  | read => exact decide_eq_true (hk false)
  | write v => exact decide_eq_true (hk true)

namespace RowMatch

/-- The encoding of a well-formed instruction matches its row. -/
def Statement (i : Instr) : Prop := i.wellFormed = true → (rowOf i).admits (encode i) = true

theorem nop : Statement .nop := fun _ => by decide

theorem init : Statement .init := fun _ => by decide

theorem compress : Statement .compress := fun _ => by decide

theorem encodeHex : Statement .encodeHex := fun _ => by decide

theorem encodeB64 : Statement .encodeB64 := fun _ => by decide

theorem encodeBadFmt (fmt : BitVec 4) : Statement (.encodeBadFmt fmt) := fun hw => by
  clear hw
  revert fmt
  decide

theorem clrErr : Statement .clrErr := fun _ => by decide

theorem illegal (op fmt : BitVec 4) (rsv : BitVec 24) : Statement (.illegal op fmt rsv) := fun _ => by simp [rowOf, encode, TableRow.admits]

theorem badSize1 (x : Xfer) (off : BitVec 8) : Statement (.badSize1 x off) := fun hw => encodeXfer_admits x fun b => by
  clear hw
  revert b off
  decide +kernel

theorem badSize2 (x : Xfer) (off : BitVec 8) : Statement (.badSize2 x off) := fun hw => encodeXfer_admits x fun b => by
  clear hw
  revert b off
  decide +kernel

theorem badAlign1 (x : Xfer) (off : BitVec 8) : Statement (.badAlign1 x off) := fun hw => encodeXfer_admits x fun b => by
  simp only [Instr.wellFormed] at hw
  revert b off
  decide +kernel

theorem badAlign2 (x : Xfer) (off : BitVec 8) : Statement (.badAlign2 x off) := fun hw => encodeXfer_admits x fun b => by
  simp only [Instr.wellFormed] at hw
  revert b off
  decide +kernel

theorem wrCmd (w : Word) : Statement (.wrCmd w) := fun _ => by
  simp only [rowOf, encode, encodeXfer, TableRow.admits]
  decide

theorem rdCmd : Statement .rdCmd := fun _ => by decide

theorem rdStatus : Statement .rdStatus := fun _ => by decide

theorem wrStatus (v : Word) : Statement (.wrStatus v) := fun _ => by
  simp only [rowOf, encode, encodeXfer, TableRow.admits]
  decide

theorem rdId : Statement .rdId := fun _ => by decide

theorem wrId (v : Word) : Statement (.wrId v) := fun _ => by
  simp only [rowOf, encode, encodeXfer, TableRow.admits]
  decide

theorem unmapped0C (x : Xfer) : Statement (.unmapped0C x) := fun _ => encodeXfer_admits x fun b => by
  revert b
  decide

theorem unmapped10 (x : Xfer) (off : BitVec 8) : Statement (.unmapped10 x off) := fun hw => encodeXfer_admits x fun b => by
  simp only [Instr.wellFormed] at hw
  revert b off
  decide +kernel

theorem unmapped20 (x : Xfer) (off : BitVec 8) : Statement (.unmapped20 x off) := fun hw => encodeXfer_admits x fun b => by
  simp only [Instr.wellFormed] at hw
  revert b off
  decide +kernel

theorem wrMsg (i : Fin 16) (v : Word) : Statement (.wrMsg i v) := fun hw => decide_eq_true (by
  clear hw
  show accessKey true 4#3 (msgOff i) &&& _ = _
  revert i
  decide)

theorem rdMsg (i : Fin 16) : Statement (.rdMsg i) := fun hw => decide_eq_true (by
  clear hw
  show accessKey false 4#3 (msgOff i) &&& _ = _
  revert i
  decide)

theorem rdHash (j : Fin 8) : Statement (.rdHash j) := fun hw => decide_eq_true (by
  clear hw
  show accessKey false 4#3 (hashOff j) &&& _ = _
  revert j
  decide)

theorem wrHash (j : Fin 8) (v : Word) : Statement (.wrHash j v) := fun hw => decide_eq_true (by
  clear hw
  show accessKey true 4#3 (hashOff j) &&& _ = _
  revert j
  decide)

theorem unmappedA0 (x : Xfer) (off : BitVec 8) : Statement (.unmappedA0 x off) := fun hw => encodeXfer_admits x fun b => by
  simp only [Instr.wellFormed] at hw
  revert b off
  decide +kernel

theorem rdOut (n : Fin 16) : Statement (.rdOut n) := fun hw => decide_eq_true (by
  clear hw
  show accessKey false 4#3 (outOff n) &&& _ = _
  revert n
  decide)

theorem wrOut (n : Fin 16) (v : Word) : Statement (.wrOut n v) := fun hw => decide_eq_true (by
  clear hw
  show accessKey true 4#3 (outOff n) &&& _ = _
  revert n
  decide)

end RowMatch

end Sys2Proof.Laws
end

