-- ==== Sys2Proof/Laws/Step.lean ====
section
/-! SUPPORT. Runs, and what no step reads: the events still to come have no part in what an event does, so an effect can be stated
apart from them. Cite the `engineStep` lemmas by field: a kernel check that has to compare a compressed hash with a free one unfolds
64 rounds. -/

namespace Sys2Proof.Machine

/-! ## One flag raised, as a record update -/

theorem raise_addr (s : State) : s.raise .addr = { s with errAddr := true } := by simp [State.raise]
theorem raise_busy (s : State) : s.raise .busy = { s with errBusy := true } := by simp [State.raise]
theorem raise_cmd (s : State) : s.raise .cmd = { s with errCmd := true } := by simp [State.raise]
theorem raise_fmt (s : State) : s.raise .fmt = { s with errFmt := true } := by simp [State.raise]

/-- A flag that is set stays set when one is raised. -/
theorem raise_keeps {e f : ErrFlag} {s : State} (h : s.flag f = true) : (s.raise e).flag f = true := by simp [h]

/-- The BUSY gate twice is the BUSY gate once. -/
theorem whenIdle_twice (f : State → State) (s : State) : whenIdle (whenIdle f) s = whenIdle f s := by
  by_cases hp : s.pend = .none
  · rw [whenIdle_idle hp]
  · rw [whenIdle_busy hp, whenIdle_busy hp]

/-- A state with its ENGINE step taken has none left to take. -/
theorem engineStep_idle {s : State} (hp : s.pend = .none) : engineStep s = s := by simp [engineStep, hp]

/-! ## What the ENGINE step keeps -/

theorem engineStep_msg (s : State) : (engineStep s).msg = s.msg := by
  obtain ⟨-, h⟩ | ⟨-, h⟩ | ⟨-, h⟩ | ⟨-, h⟩ := engineStep_cases s <;> simp [h]

theorem engineStep_flag (s : State) (f : ErrFlag) : (engineStep s).flag f = s.flag f := by
  obtain ⟨-, h⟩ | ⟨-, h⟩ | ⟨-, h⟩ | ⟨-, h⟩ := engineStep_cases s <;> rw [h] <;> cases f <;> rfl

/-! ## Events to come are not read -/

/-- The state with other events to come. -/
def State.withEvents (s : State) (es : List Event) : State := { s with events := es }

theorem perform_withEvents (c : Command) (s : State) (es : List Event) :
    perform c (s.withEvents es) = (perform c s).withEvents es := by
  cases c with
  | encode fmt =>
    simp only [perform, encodeIssue]
    split_ifs <;> rfl
  | _ => rfl

theorem whenIdle_withEvents {f : State → State} {s : State} {es : List Event}
    (hf : f (s.withEvents es) = (f s).withEvents es) : whenIdle f (s.withEvents es) = (whenIdle f s).withEvents es := by
  by_cases hp : s.pend = .none
  · rw [whenIdle_idle hp, whenIdle_idle (s := s.withEvents es) hp, hf]
  · rw [whenIdle_busy hp, whenIdle_busy (s := s.withEvents es) hp]
    rfl

theorem busAccess_withEvents (x : Xfer) (size : BitVec 3) (off : BitVec 8) (s : State) (es : List Event) :
    busAccess x size off (s.withEvents es) = (busAccess x size off s).withEvents es := by
  cases x with
  | write v =>
    simp only [busAccess, busWrite]
    cases decodeAccess off size
    case cmd => exact whenIdle_withEvents (whenIdle_withEvents (perform_withEvents _ _ _))
    case msg i => exact whenIdle_withEvents rfl
    all_goals rfl
  | read =>
    simp only [busAccess, busRead, show (s.withEvents es).pend = s.pend from rfl]
    cases decodeAccess off size <;> simp only <;> (try split_ifs) <;> rfl

theorem engineStep_withEvents (s : State) (es : List Event) : engineStep (s.withEvents es) = (engineStep s).withEvents es := by
  obtain ⟨hp, h⟩ | ⟨hp, h⟩ | ⟨hp, h⟩ | ⟨hp, h⟩ := engineStep_cases s <;>
    rw [h] <;> simp only [engineStep, show (s.withEvents es).pend = s.pend from rfl, hp] <;> rfl

/-! ## Runs -/

/-- A run of one step more. -/
theorem run_succ {n : Nat} {s t : State} (h : step s = .next t) : core.run (n + 1) s = core.run n t := by
  have h' : core.step s = .next t := h
  simp only [Host.Core.run, h']

/-- Each step takes one event off, and changes the list in no other way. -/
theorem step_events {s t : State} (h : step s = .next t) : t.events = s.events.tail := by
  obtain ⟨he, rfl⟩ | ⟨es, he, rfl⟩ | ⟨es, he, rfl⟩ | ⟨item, es, he, hh⟩ := step_cases h
  · simp [he]
  · simp [he]
  · simp [he]
  · rw [(hostStep_effect hh).events, he]
    rfl

end Sys2Proof.Machine
end

