-- ==== Sys2Proof/Tests/Slice0.lean ====
section
/-! SUPPORT. Tests. Expected values are the spec's own: the encodings of spec/30_encoding.md and spec/opcode_table.json, and the
vectors of spec/95_test_vectors.md, each test naming its vector. The last part gives, for every obligation with hypotheses, a concrete
state and operands that meet them. -/

namespace Sys2Proof.Tests

open Sys2Proof Sys2Proof.Machine

/-! ## Small states -/

/-- Nothing pending, right after reset. -/
def idle : State := State.reset

/-- V-BUS "busy": right after COMPRESS from reset, before its ENGINE step. -/
def busy : State := { State.reset with pend := .compress }

/-- V-BUS "flags 0x1E set". -/
def flagged : State := { State.reset with errAddr := true, errBusy := true, errCmd := true, errFmt := true }

/-- V-BUS "after encode hex". -/
def encoded : State := { State.reset with outb := hexOutput iv, outlen := 64#8 }

/-- The state after one host item. -/
def after (s : State) (item : HostItem) : State :=
  match step { s with events := [.host item] } with
  | .next t => t
  | .fault _ => s
  | .refused _ => s

/-- The state after one ENGINE turn. -/
def afterEngine (s : State) : State :=
  match step { s with events := [.engine] } with
  | .next t => t
  | .fault _ => s
  | .refused _ => s

/-- The word the last read returned. -/
def lastRead (s : State) : Option Word := s.reads.getLast?.map ReadRecord.value

/-- The instruction an item decodes to, if any. -/
def decoded (item : HostItem) : Option Instr :=
  match decode item with
  | .ok i => some i
  | .error _ => none

/-! ## WellFormed: each check refuses an ill-formed term -/

theorem test_wellFormed_encodeBadFmt : (Instr.encodeBadFmt 1#4).wellFormed = false ∧ (Instr.encodeBadFmt 2#4).wellFormed = true := by decide
theorem test_wellFormed_illegal_word_of_a_command : (Instr.illegal 2#4 0#4 0#24).wellFormed = false ∧ (Instr.illegal 2#4 1#4 0#24).wellFormed = true := by decide
theorem test_wellFormed_illegal_word_of_encode : (Instr.illegal 3#4 7#4 0#24).wellFormed = false ∧ (Instr.illegal 3#4 7#4 1#24).wellFormed = true := by decide
theorem test_wellFormed_illegal_op : (Instr.illegal 4#4 0#4 0#24).wellFormed = false ∧ (Instr.illegal 5#4 0#4 0#24).wellFormed = true := by decide
theorem test_wellFormed_badAlign1 : (Instr.badAlign1 .read 0x42#8).wellFormed = false ∧ (Instr.badAlign1 .read 0x43#8).wellFormed = true := by decide
theorem test_wellFormed_badAlign2 : (Instr.badAlign2 .read 0x43#8).wellFormed = false ∧ (Instr.badAlign2 .read 0x42#8).wellFormed = true := by decide
theorem test_wellFormed_unmapped10 : (Instr.unmapped10 .read 0x20#8).wellFormed = false ∧ (Instr.unmapped10 .read 0x1C#8).wellFormed = true := by decide
theorem test_wellFormed_unmapped20 : (Instr.unmapped20 .read 0x40#8).wellFormed = false ∧ (Instr.unmapped20 .read 0x3C#8).wellFormed = true := by decide
theorem test_wellFormed_unmappedA0 : (Instr.unmappedA0 .read 0xC0#8).wellFormed = false ∧ (Instr.unmappedA0 .read 0xBC#8).wellFormed = true := by decide

/-! ## Decoding: a word written out for every constructor -/

theorem test_decode_nop : decoded (.command 0x00000000#32) = some (.nop) := by decide
theorem test_decode_init : decoded (.command 0x00000001#32) = some (.init) := by decide
theorem test_decode_compress : decoded (.command 0x00000002#32) = some (.compress) := by decide
theorem test_decode_encodeHex : decoded (.command 0x00000003#32) = some (.encodeHex) := by decide
theorem test_decode_encodeB64 : decoded (.command 0x00000013#32) = some (.encodeB64) := by decide
theorem test_decode_encodeBadFmt_first : decoded (.command 0x00000023#32) = some (.encodeBadFmt 2#4) := by decide
theorem test_decode_encodeBadFmt_last : decoded (.command 0x000000F3#32) = some (.encodeBadFmt 15#4) := by decide
theorem test_decode_clrErr : decoded (.command 0x00000004#32) = some (.clrErr) := by decide
theorem test_decode_illegal_op : decoded (.command 0x0000000F#32) = some (.illegal 15#4 0#4 0#24) := by decide
theorem test_decode_illegal_fmt : decoded (.command 0x00000012#32) = some (.illegal 2#4 1#4 0#24) := by decide
theorem test_decode_illegal_rsv : decoded (.command 0x80000002#32) = some (.illegal 2#4 0#4 0x800000#24) := by decide
theorem test_decode_illegal_encode_rsv : decoded (.command 0x00000103#32) = some (.illegal 3#4 0#4 1#24) := by decide
theorem test_decode_illegal_all_ones : decoded (.command 0xFFFFFFFF#32) = some (.illegal 15#4 15#4 0xFFFFFF#24) := by decide
theorem test_decode_badSize1 : decoded (.access (0#1 ++ 1#3 ++ 0x40#8) 0x89ABCDEF#32) = some (.badSize1 .read 0x40#8) := by decide
theorem test_decode_badSize2 : decoded (.access (1#1 ++ 2#3 ++ 0x40#8) 0x89ABCDEF#32) = some (.badSize2 (.write 0x89ABCDEF#32) 0x40#8) := by decide
theorem test_decode_badAlign1 : decoded (.access (0#1 ++ 4#3 ++ 0x41#8) 0x89ABCDEF#32) = some (.badAlign1 .read 0x41#8) := by decide
theorem test_decode_badAlign2 : decoded (.access (1#1 ++ 4#3 ++ 0xC2#8) 0x89ABCDEF#32) = some (.badAlign2 (.write 0x89ABCDEF#32) 0xC2#8) := by decide
theorem test_decode_wrCmd : decoded (.access (1#1 ++ 4#3 ++ 0x00#8) 0x89ABCDEF#32) = some (.wrCmd 0x89ABCDEF#32) := by decide
theorem test_decode_rdCmd : decoded (.access (0#1 ++ 4#3 ++ 0x00#8) 0x89ABCDEF#32) = some (.rdCmd) := by decide
theorem test_decode_rdStatus : decoded (.access (0#1 ++ 4#3 ++ 0x04#8) 0x89ABCDEF#32) = some (.rdStatus) := by decide
theorem test_decode_wrStatus : decoded (.access (1#1 ++ 4#3 ++ 0x04#8) 0x89ABCDEF#32) = some (.wrStatus 0x89ABCDEF#32) := by decide
theorem test_decode_rdId : decoded (.access (0#1 ++ 4#3 ++ 0x08#8) 0x89ABCDEF#32) = some (.rdId) := by decide
theorem test_decode_wrId : decoded (.access (1#1 ++ 4#3 ++ 0x08#8) 0x89ABCDEF#32) = some (.wrId 0x89ABCDEF#32) := by decide
theorem test_decode_unmapped0C : decoded (.access (0#1 ++ 4#3 ++ 0x0C#8) 0x89ABCDEF#32) = some (.unmapped0C .read) := by decide
theorem test_decode_unmapped10 : decoded (.access (1#1 ++ 4#3 ++ 0x1C#8) 0x89ABCDEF#32) = some (.unmapped10 (.write 0x89ABCDEF#32) 0x1C#8) := by decide
theorem test_decode_unmapped20 : decoded (.access (0#1 ++ 4#3 ++ 0x3C#8) 0x89ABCDEF#32) = some (.unmapped20 .read 0x3C#8) := by decide
theorem test_decode_wrMsg : decoded (.access (1#1 ++ 4#3 ++ 0x44#8) 0x89ABCDEF#32) = some (.wrMsg 1 0x89ABCDEF#32) := by decide
theorem test_decode_rdMsg : decoded (.access (0#1 ++ 4#3 ++ 0x7C#8) 0x89ABCDEF#32) = some (.rdMsg 15) := by decide
theorem test_decode_rdHash : decoded (.access (0#1 ++ 4#3 ++ 0x9C#8) 0x89ABCDEF#32) = some (.rdHash 7) := by decide
theorem test_decode_wrHash : decoded (.access (1#1 ++ 4#3 ++ 0x84#8) 0x89ABCDEF#32) = some (.wrHash 1 0x89ABCDEF#32) := by decide
theorem test_decode_unmappedA0 : decoded (.access (0#1 ++ 4#3 ++ 0xBC#8) 0x89ABCDEF#32) = some (.unmappedA0 .read 0xBC#8) := by decide
theorem test_decode_rdOut : decoded (.access (0#1 ++ 4#3 ++ 0xFC#8) 0x89ABCDEF#32) = some (.rdOut 15) := by decide
theorem test_decode_wrOut : decoded (.access (1#1 ++ 4#3 ++ 0xC4#8) 0x89ABCDEF#32) = some (.wrOut 1 0x89ABCDEF#32) := by decide

/-- A size the table has no row for is rejected by name. -/
theorem test_decode_rejects_size_3 : decode (.access (0#1 ++ 3#3 ++ 0x40#8) 0#32) = .error (.sizeNotInTable 3#3) := rfl

/-! ## The interface to the table -/

/-- `withFetchWord` puts the table's word on the bus of the next step. -/
theorem test_withFetchWord_compress : step (idle.withFetchWord 32 0x00000002) = .next busy := rfl

theorem test_withFetchWord_rdId :
    step (idle.withFetchWord 16 0x408) = .next { idle with reads := [⟨0x08#8, 4#3, 0x53323536#32⟩] } := rfl

theorem test_decodeTableWord_wrMsg : decodeTableWord 16 0xC44 = some (.wrMsg 1 0#32) := by decide

/-! ## Primitives (V-PRIM) -/

theorem test_rotr_2 : rotr 0x00000001#32 2 = 0x40000000#32 := by decide
theorem test_rotr_25 : rotr 0x00000001#32 25 = 0x00000080#32 := by decide
theorem test_rotr_7 : rotr 0x12345678#32 7 = 0xF02468AC#32 := by decide
theorem test_smallSigma0 : smallSigma0 0x61626380#32 = 0x940E90EF#32 := by decide
theorem test_smallSigma0_ones : smallSigma0 0xFFFFFFFF#32 = 0x1FFFFFFF#32 := by decide
theorem test_smallSigma1 : smallSigma1 0x00000018#32 = 0x000F0000#32 := by decide
theorem test_smallSigma1_ones : smallSigma1 0xFFFFFFFF#32 = 0x003FFFFF#32 := by decide
theorem test_bigSigma0 : bigSigma0 0x6A09E667#32 = 0xCE20B47E#32 := by decide
theorem test_bigSigma1 : bigSigma1 0x510E527F#32 = 0x3587272B#32 := by decide
theorem test_ch : ch 0x510E527F#32 0x9B05688C#32 0x1F83D9AB#32 = 0x1F85C98C#32 := by decide
theorem test_maj : maj 0x6A09E667#32 0xBB67AE85#32 0x3C6EF372#32 = 0x3A6FE667#32 := by decide
theorem test_add_wraps : (0xFFFFFFFF#32 : Word) + 0x00000001#32 = 0x00000000#32 := by decide

/-! ## Schedule, compression, encoders (V-SCHED, V-COMP, V-SER, V-HEX, V-B64) -/

/-- The block of "abc" (V-SRC-2). -/
def abcBlock : Vector Word 16 := (Vector.replicate 16 0#32).set 0 0x61626380#32 |>.set 15 0x00000018#32

/-- The hash words of "abc" (V-COMP-1). -/
def abcHash : Vector Word 8 :=
  #v[0xBA7816BF#32, 0x8F01CFEA#32, 0x414140DE#32, 0x5DAE2223#32, 0xB00361A3#32, 0x96177A9C#32, 0xB410FF61#32, 0xF20015AD#32]

theorem test_schedule_abc : (schedule abcBlock).getD 16 0#32 = 0x61626380#32 ∧ (schedule abcBlock).getD 18 0#32 = 0x7DA86405#32 ∧
    (schedule abcBlock).getD 63 0#32 = 0x12B1EDEB#32 := by decide +kernel

theorem test_schedule_ones : (schedule (Vector.replicate 16 0xFFFFFFFF#32)).getD 63 0#32 = 0x4BCEAF09#32 := by decide +kernel

/-- V-ROUND-2, round 0. -/
theorem test_round : round 0x428A2F98#32 0x61626380#32 (seed iv) =
    ⟨0x5D6AEBCD#32, 0x6A09E667#32, 0xBB67AE85#32, 0x3C6EF372#32, 0xFA2A4622#32, 0x510E527F#32, 0x9B05688C#32, 0x1F83D9AB#32⟩ := by
  decide +kernel

theorem test_compress_abc : compress iv abcBlock = abcHash := by decide +kernel

/-- V-COMP-3: every addition wraps. -/
theorem test_compress_ones : compress (Vector.replicate 8 0xFFFFFFFF#32) (Vector.replicate 16 0xFFFFFFFF#32) =
    #v[0x0598127A#32, 0xAF11706E#32, 0x77401FFF#32, 0xD730C549#32, 0x0B84C867#32, 0xA98C6CA3#32, 0xD7F3C0F9#32, 0x06A78B79#32] := by
  decide +kernel

/-- V-COMP-5: two blocks in order. -/
theorem test_sha256_two_blocks :
    (blocks ("abcdbcdecdefdefgefghfghighijhijkijkljklmklmnlmnomnopnopq".toList.map fun c => BitVec.ofNat 8 c.toNat)).foldl compress iv =
    #v[0x248D6A61#32, 0xD20638B8#32, 0xE5C02693#32, 0x0C3E6039#32, 0xA33CE459#32, 0x64FF2167#32, 0xF6ECEDD4#32, 0x19DB06C1#32] := by
  decide +kernel

theorem test_hex_abc : outWord (hexOutput abcHash) 0 = 0x62613738#32 ∧ outWord (hexOutput abcHash) 15 = 0x31356164#32 := by
  decide +kernel

theorem test_b64_abc : outWord (b64Output abcHash) 0 = 0x756E6757#32 ∧ outWord (b64Output abcHash) 10 = 0x4661303D#32 ∧
    outWord (b64Output abcHash) 11 = 0#32 := by decide +kernel

theorem test_b64_ones : outWord (b64Output (Vector.replicate 8 0xFFFFFFFF#32)) 10 = 0x2F2F383D#32 := by decide +kernel

theorem test_b64Char_corners : [0#6, 25#6, 26#6, 51#6, 52#6, 61#6, 62#6, 63#6].map b64Char =
    [0x41#8, 0x5A#8, 0x61#8, 0x7A#8, 0x30#8, 0x39#8, 0x2B#8, 0x2F#8] := by decide

theorem test_serialize : (serialize (Vector.replicate 8 0x00010203#32)).toList.take 4 = [0x00#8, 0x01#8, 0x02#8, 0x03#8] := by decide

/-- R203 and R64: the bytes 0x61, 0x62, 0x63, 0x80 are the word 0x61626380, whose byte 0 is 0x61. -/
theorem test_packBE_order : packBE 0x61#8 0x62#8 0x63#8 0x80#8 = 0x61626380#32 ∧ byteBE 0x61626380#32 0 = 0x61#8 := by decide

/-- V-PAD: 55 bytes are the last that fit one block. -/
theorem test_pad_boundaries : [0, 3, 55, 56, 63, 64].map (fun n => (pad (List.replicate n 0x61#8)).length) = [64, 64, 64, 128, 128, 128] := by
  decide +kernel

theorem test_blocks_abc : blocks [0x61#8, 0x62#8, 0x63#8] = [abcBlock] := by decide +kernel

/-- R202: "abc" is below the limit. -/
theorem test_inputTooLarge_abc : inputTooLarge [0x61#8, 0x62#8, 0x63#8] = false := by decide

/-- P2: its accesses from the first `ldblk` on, with the wait of step 3 before them and without its last STATUS read; the number of
accesses is 1 + 16 + 1 + 1 + 8 with `rdhash`, and 1 + 16 + 1 + 1 + 1 + 1 + 11 with `encode base64`. -/
theorem test_digestProgram_abc_accesses :
    ([Readout.hash, .base64].map fun r => match digestProgram .afterReset r [0x61#8, 0x62#8, 0x63#8] with
      | .ok ps => ((expandProgram ps).filterMap Stmt.item).length
      | .error _ => 0) = [27, 32] := by decide +kernel

/-- R207: the output string of "abc" in Base64 (V-SRC-2) starts with `un` and ends with `=`. -/
theorem test_digestOutput_abc : (digestOutput .base64 [0x61#8, 0x62#8, 0x63#8]).take 2 = [0x75#8, 0x6E#8] ∧
    (digestOutput .base64 [0x61#8, 0x62#8, 0x63#8]).getLast? = some 0x3D#8 := by decide +kernel

/-- R90: two waits of one label are not fresh. -/
theorem test_waitsFresh : waitsFresh [.wait "A", .compress, .wait "A"] = false ∧ waitsFresh [.wait "A", .compress, .wait "B"] = true := by
  decide +kernel

/-! ## One step of each instruction (V-BUS) -/

theorem test_step_nop : (after flagged (.command 0x00000000#32)).status = 0x0000001E#32 := by decide
theorem test_step_init : after { encoded with h := abcHash } (.command 0x00000001#32) = idle := by decide +kernel
theorem test_step_compress : (after idle (.command 0x00000002#32)).status = 0x00000001#32 := by decide
theorem test_step_encodeHex : (after idle (.command 0x00000003#32)).status = 0x00000001#32 := by decide
theorem test_step_encodeB64 : (after idle (.command 0x00000013#32)).status = 0x00000001#32 := by decide
theorem test_step_encodeBadFmt : (after encoded (.command 0x00000023#32)).status = 0x00000010#32 ∧
    (after encoded (.command 0x00000023#32)).outb = Vector.replicate 64 0#8 := by decide +kernel
theorem test_step_clrErr : (after flagged (.command 0x00000004#32)).status = 0x00000000#32 := by decide
theorem test_step_clrErr_busy : (after busy (.command 0x00000004#32)).status = 0x00000005#32 := by decide
theorem test_step_illegal : (after idle (.command 0x00000005#32)).status = 0x00000008#32 := by decide
theorem test_step_badSize1 : (after idle (.access (0#1 ++ 1#3 ++ 0x40#8) 0#32)).status = 0x00000002#32 ∧ lastRead (after idle (.access (0#1 ++ 1#3 ++ 0x40#8) 0#32)) = some 0x00000000#32 := by decide
theorem test_step_badSize2_busy : (after busy (.access (1#1 ++ 2#3 ++ 0x00#8) 0x00000005#32)).status = 0x00000003#32 := by decide
theorem test_step_badAlign1 : (after idle (.access (0#1 ++ 4#3 ++ 0x41#8) 0#32)).status = 0x00000002#32 ∧ lastRead (after idle (.access (0#1 ++ 4#3 ++ 0x41#8) 0#32)) = some 0x00000000#32 := by decide
theorem test_step_badAlign2 : (after idle (.access (1#1 ++ 4#3 ++ 0x42#8) 0x00000001#32)).status = 0x00000002#32 := by decide
theorem test_step_wrCmd : (after idle (.access (1#1 ++ 4#3 ++ 0x00#8) 0x00000103#32)).status = 0x00000008#32 := by decide
theorem test_step_wrCmd_busy : (after busy (.access (1#1 ++ 4#3 ++ 0x00#8) 0x00000005#32)).status = 0x00000005#32 := by decide
theorem test_step_rdCmd : (after idle (.access (0#1 ++ 4#3 ++ 0x00#8) 0#32)).status = 0x00000000#32 ∧ lastRead (after idle (.access (0#1 ++ 4#3 ++ 0x00#8) 0#32)) = some 0x00000000#32 := by decide
theorem test_step_rdStatus : (after busy (.access (0#1 ++ 4#3 ++ 0x04#8) 0#32)).status = 0x00000001#32 ∧ lastRead (after busy (.access (0#1 ++ 4#3 ++ 0x04#8) 0#32)) = some 0x00000001#32 := by decide
theorem test_step_wrStatus : (after idle (.access (1#1 ++ 4#3 ++ 0x04#8) 0xFFFFFFFF#32)).status = 0x00000002#32 := by decide
theorem test_step_rdId : (after busy (.access (0#1 ++ 4#3 ++ 0x08#8) 0#32)).status = 0x00000001#32 ∧ lastRead (after busy (.access (0#1 ++ 4#3 ++ 0x08#8) 0#32)) = some 0x53323536#32 := by decide
theorem test_step_wrId : (after idle (.access (1#1 ++ 4#3 ++ 0x08#8) 0x00000000#32)).status = 0x00000002#32 := by decide
theorem test_step_unmapped0C : (after idle (.access (0#1 ++ 4#3 ++ 0x0C#8) 0#32)).status = 0x00000002#32 ∧ lastRead (after idle (.access (0#1 ++ 4#3 ++ 0x0C#8) 0#32)) = some 0x00000000#32 := by decide
theorem test_step_unmapped10 : (after idle (.access (1#1 ++ 4#3 ++ 0x10#8) 0x00000001#32)).status = 0x00000002#32 := by decide
theorem test_step_unmapped20 : (after idle (.access (1#1 ++ 4#3 ++ 0x3C#8) 0x00000001#32)).status = 0x00000002#32 := by decide
theorem test_step_wrMsg : (after idle (.access (1#1 ++ 4#3 ++ 0x44#8) 0xDEADBEEF#32)).msg = (Vector.replicate 16 0#32).set 1 0xDEADBEEF#32 := by decide
theorem test_step_wrMsg_busy : (after busy (.access (1#1 ++ 4#3 ++ 0x40#8) 0x00000001#32)).status = 0x00000005#32 ∧
    (after busy (.access (1#1 ++ 4#3 ++ 0x40#8) 0x00000001#32)).msg = busy.msg := by decide
theorem test_step_rdMsg : (after { idle with msg := abcBlock } (.access (0#1 ++ 4#3 ++ 0x7C#8) 0#32)).status = 0x00000000#32 ∧ lastRead (after { idle with msg := abcBlock } (.access (0#1 ++ 4#3 ++ 0x7C#8) 0#32)) = some 0x00000018#32 := by decide
theorem test_step_rdHash : (after idle (.access (0#1 ++ 4#3 ++ 0x9C#8) 0#32)).status = 0x00000000#32 ∧ lastRead (after idle (.access (0#1 ++ 4#3 ++ 0x9C#8) 0#32)) = some 0x5BE0CD19#32 := by decide
theorem test_step_rdHash_busy : (after busy (.access (0#1 ++ 4#3 ++ 0x80#8) 0#32)).status = 0x00000005#32 ∧ lastRead (after busy (.access (0#1 ++ 4#3 ++ 0x80#8) 0#32)) = some 0x00000000#32 := by decide
theorem test_step_wrHash_busy : (after busy (.access (1#1 ++ 4#3 ++ 0x80#8) 0x00000000#32)).status = 0x00000003#32 := by decide
theorem test_step_unmappedA0 : (after idle (.access (0#1 ++ 4#3 ++ 0xA0#8) 0#32)).status = 0x00000002#32 ∧ lastRead (after idle (.access (0#1 ++ 4#3 ++ 0xA0#8) 0#32)) = some 0x00000000#32 := by decide
theorem test_step_rdOut : lastRead (after encoded (.access (0#1 ++ 4#3 ++ 0xC0#8) 0#32)) = some 0x36613039#32 := by decide +kernel
theorem test_step_rdOut_busy : (after busy (.access (0#1 ++ 4#3 ++ 0xC0#8) 0#32)).status = 0x00000005#32 ∧ lastRead (after busy (.access (0#1 ++ 4#3 ++ 0xC0#8) 0#32)) = some 0x00000000#32 := by decide
theorem test_step_wrOut : (after idle (.access (1#1 ++ 4#3 ++ 0xC0#8) 0x00000000#32)).status = 0x00000002#32 := by decide

/-- The completion of COMPRESS on the block of "abc" (V-COMP-1). -/
theorem test_engine_compress : (afterEngine { busy with msg := abcBlock }).h = abcHash := by decide +kernel

/-- STATUS after a completed `encode hex`, and after `encode base64`, from reset. -/
theorem test_engine_encodeHex : (afterEngine { idle with pend := .encodeHex }).status = 0x00004000#32 := by decide +kernel

theorem test_engine_encodeB64 : (afterEngine { idle with pend := .encodeB64 }).status = 0x00002C00#32 := by decide +kernel

/-! ## Witnesses: the hypotheses of each obligation can be met, clause by clause -/

/-- An event list of one host item. -/
def hostEvents (item : HostItem) : List Event := [.host item]

theorem witness_StepRunsTheDecodedItem :
    { idle with events := hostEvents (.command 2#32) }.events = .host (.command 2#32) :: [] ∧
      decode (.command 2#32) = .ok .compress := ⟨rfl, rfl⟩

/-- Sizes 0, 3 and 7. -/
theorem witness_OtherSizesRaiseErrAddr : ∀ key ∈ [0x000#12, 0x3FF#12, 0xF00#12],
    keySize key ≠ 1#3 ∧ keySize key ≠ 2#3 ∧ keySize key ≠ 4#3 := by
  simp only [List.forall_mem_cons, List.not_mem_nil, false_implies, implies_true, and_true]
  decide

theorem witness_EngineTurnCompletesThePendingOperation :
    { busy with events := [.engine] }.events = .engine :: [] ∧ busy.events = [] := ⟨rfl, rfl⟩

theorem witness_ResetEventRestoresTheResetState : { flagged with events := [.reset] }.events = .reset :: [] := rfl

theorem witness_NopDoesNothing : idle.pend = .none ∧ busy.pend ≠ .none ∧
    ∀ w ∈ [0x00000010#32, 0x00000100#32], w.extractLsb' 0 4 = 0#4 ∧ w ≠ 0#32 := ⟨rfl, by decide, by
  simp only [List.forall_mem_cons, List.not_mem_nil, false_implies, implies_true, and_true]
  decide⟩

theorem witness_InitLoadsIvAndClearsTheOutput : encoded.pend = .none ∧ busy.pend ≠ .none ∧
    ∃ t, exec .init encoded = .next t := ⟨rfl, by decide, _, rfl⟩

theorem witness_ClrErrClearsTheFourFlags : flagged.pend = .none ∧ busy.pend ≠ .none ∧ idle.pend = .none ∧ idle.clean ∧
    ∀ w ∈ [0x00000014#32, 0x80000004#32], w.extractLsb' 0 4 = 4#4 ∧ w ≠ 4#32 :=
  ⟨rfl, by decide, rfl, ⟨rfl, rfl, rfl, rfl⟩, by
    simp only [List.forall_mem_cons, List.not_mem_nil, false_implies, implies_true, and_true]
    decide⟩

theorem witness_CompressIssuesAndCompletes : idle.pend = .none ∧ busy.pend ≠ .none ∧ busy.pend = .compress ∧
    { busy with events := [.engine] }.events = .engine :: [] ∧
    ∀ w ∈ [0x00000012#32, 0x80000002#32], w.extractLsb' 0 4 = 2#4 ∧ w ≠ 2#32 := ⟨rfl, by decide, rfl, rfl, by
      simp only [List.forall_mem_cons, List.not_mem_nil, false_implies, implies_true, and_true]
      decide⟩

theorem witness_EncodeIssuesHexAndBase64 : idle.pend = .none ∧ busy.pend ≠ .none := ⟨rfl, by decide⟩

theorem witness_EncodeBadFormatClearsAndFlags : encoded.pend = .none ∧ busy.pend ≠ .none ∧ (2#4 ≤ 2#4 ∧ 2#4 ≤ 15#4) ∧
    (0x00000103#32).extractLsb' 0 4 = 3#4 ∧ (0x00000103#32).extractLsb' 8 24 ≠ 0#24 := by
  refine ⟨rfl, by decide, by decide, by decide, by decide⟩

theorem witness_EncodeCompletionFillsTheOutput : ∀ p ∈ [Pending.encodeHex, Pending.encodeB64], ∃ s t : State,
    s.pend = p ∧ s.events = .engine :: [] ∧ step s = .next t :=
  fun p _ => ⟨{ idle with pend := p, events := [.engine] }, _, rfl, rfl, rfl⟩

/-- Each of the three cases of R85, and the two ends of FMT 2..15. -/
theorem witness_IllegalWordsRaiseErrCmdOnly : idle.pend = .none ∧
    (∀ w ∈ [0x00000100#32, 0x00000005#32, 0x0000000F#32, 0x00000012#32, 0xFFFFFFFF#32], illegalWord w) ∧
    ∀ fmt ∈ [2#4, 15#4], 2#4 ≤ fmt := by
  refine ⟨rfl, ?_, by decide⟩
  simp only [List.forall_mem_cons, List.not_mem_nil, false_implies, implies_true, and_true, illegalWord]
  decide

theorem witness_CommandsWhileBusyAreDropped : busy.pend ≠ .none ∧ decode (.command 0x00000005#32) = .ok (.illegal 5#4 0#4 0#24) :=
  ⟨by decide, rfl⟩

theorem witness_WrCmdPerformsTheWordItCarries : idle.pend = .none := rfl

theorem witness_WriteMsgStoresTheWord : idle.pend = .none ∧ busy.pend ≠ .none ∧ (0 : Fin 16) ≠ 15 ∧
    (∃ t, exec .clrErr flagged = .next t) ∧ (∃ t, exec (.encodeBadFmt 2#4) encoded = .next t) ∧
    ∃ t, step { busy with events := [.engine] } = .next t := ⟨rfl, by decide, by decide, ⟨_, rfl⟩, ⟨_, rfl⟩, _, rfl⟩

theorem witness_ReadMsgReturnsTheWord : idle.pend = .none ∧ busy.pend ≠ .none := ⟨rfl, by decide⟩

theorem witness_ReadHashReturnsTheDigestBytes : idle.pend = .none ∧ busy.pend ≠ .none := ⟨rfl, by decide⟩

/-- A Base64 output of 44 characters, whose word 11 is the first wholly past OUTLEN. -/
theorem witness_ReadOutReturnsFourCharacters :
    { idle with outb := b64Output iv, outlen := 44#8 }.pend = .none ∧ busy.pend ≠ .none ∧
      { idle with outb := b64Output iv, outlen := 44#8 }.outputFresh ∧ (44#8).toNat ≤ 4 * (11 : Fin 16).val :=
  ⟨rfl, by decide, .inr (.inr ⟨rfl, rfl⟩), by decide⟩

theorem witness_WritesToReadOnlyRegistersRaiseErrAddr :
    Instr.wrOut 15 0#32 ∈ [Instr.wrStatus 0#32, .wrId 0#32, .wrHash 7 0#32, .wrOut 15 0#32] := by decide

/-- The ends of the two unmapped ranges. -/
theorem witness_UnmappedAccessesRaiseErrAddr : ∀ key ∈ [0x40C#12, 0xC3C#12, 0x4A0#12, 0xCBC#12, 0x1BF#12], unmappedOff (keyOff key) := by
  simp only [List.forall_mem_cons, List.not_mem_nil, false_implies, implies_true, and_true, unmappedOff]
  decide

/-- A size that is not 4, and each misalignment. -/
theorem witness_MalformedAccessesRaiseErrAddr : ∀ key ∈ [0x100#12, 0xF00#12, 0x401#12, 0xC42#12, 0x4FF#12],
    keySize key ≠ 4#3 ∨ (keyOff key).extractLsb' 0 2 ≠ 0#2 := by
  simp only [List.forall_mem_cons, List.not_mem_nil, false_implies, implies_true, and_true]
  decide

theorem witness_RowsAgreeWithTheGeneralBusRules : decode (.access 0x47C#12 0#32) = .ok (.rdMsg 15) := rfl

/-- One access for each clause: the four causes of ERR_ADDR, then ERR_BUSY on a write and on a read, ERR_CMD, ERR_FMT, and none. -/
theorem witness_OneErrorPerAccessByPriority :
    (addrCause false 1#3 0x40#8 ∧ addrCause true 4#3 0x41#8 ∧ addrCause false 4#3 0xBC#8 ∧ addrCause true 4#3 0xFC#8) ∧
    (¬ addrCause true 4#3 0x00#8 ∧ ¬ addrCause false 4#3 0x7C#8 ∧ ¬ addrCause true 4#3 0x40#8) ∧
    (busyCause true 0x00#8 ∧ busyCause false 0x40#8 ∧ busy.pend ≠ .none) ∧
    (illegalWord 5#32 ∧ ¬ illegalWord 0x23#32 ∧ badFmtWord 0x23#32 ∧ ¬ badFmtWord 0x13#32 ∧ ¬ illegalWord 0x13#32) ∧
    ∃ t, step { idle with events := hostEvents (.access 0xC00#12 0x23#32) } = .next t := by
  refine ⟨?_, ?_, ?_, ?_, _, rfl⟩
  all_goals simp only [addrCause, unmappedOff, readOnlyOff, busyCause, illegalWord, badFmtWord]
  all_goals decide

/-- By CLRERR, and by RESET. -/
theorem witness_ErrorFlagsAreSticky :
    (∃ t, step { flagged with events := hostEvents (.command 4#32) } = .next t ∧ flagged.flag .fmt = true ∧ t.flag .fmt = false) ∧
    ∃ t, step { flagged with events := [.reset] } = .next t ∧ flagged.flag .fmt = true ∧ t.flag .fmt = false :=
  ⟨⟨_, rfl, rfl, rfl⟩, _, rfl, rfl, rfl⟩

theorem witness_ErrorFlagsNeverBlock : ∃ t t' : State,
    step { idle with events := hostEvents (.command 1#32) } = .next t ∧
      step { flagged with events := hostEvents (.command 1#32) } = .next t' := ⟨_, _, rfl, rfl⟩

/-- INIT changes H and the output, WR.MSG a word of MSG, COMPRESS the pending operation, CLRERR a flag. -/
theorem witness_ExecFrame :
    (∃ t, exec .init { encoded with h := abcHash } = .next t ∧ t.h ≠ abcHash ∧ t.outlen ≠ encoded.outlen) ∧
    (∃ t, exec (.wrMsg 15 1#32) idle = .next t ∧ t.msg ≠ idle.msg) ∧
    (∃ t, exec .compress idle = .next t ∧ t.pend ≠ idle.pend) ∧
    ∃ t, exec .clrErr flagged = .next t ∧ flagged.flag .addr = true ∧ t.flag .addr = false :=
  ⟨⟨_, rfl, by decide, by decide⟩, ⟨_, rfl, by decide⟩, ⟨_, rfl, by decide⟩, _, rfl, rfl, rfl⟩

/-- A RESET, an INIT and a completed COMPRESS that change H. -/
theorem witness_HashIsWrittenByThreeEventsOnly :
    (afterEngine { busy with msg := abcBlock }).h ≠ iv ∧ (after { idle with h := abcHash } (.command 1#32)).h ≠ abcHash ∧
      State.reset.h ≠ abcHash := by decide +kernel

theorem witness_MsgIsWrittenByTheHostOnly :
    ∃ t, step { idle with events := hostEvents (.access 0xC7C#12 1#32) } = .next t ∧ t.msg ≠ idle.msg := ⟨_, rfl, by decide⟩

theorem witness_StepKeepsTheOutputFresh : encoded.outputFresh ∧ ∃ t, step encoded = .next t := ⟨.inr (.inl ⟨rfl, rfl⟩), _, rfl⟩

theorem witness_FreshOutputIsZeroPastItsLength : { idle with outb := b64Output iv, outlen := 44#8 }.outputFresh ∧ (44#8).toNat ≤ (44 : Fin 64).val :=
  ⟨.inr (.inr ⟨rfl, rfl⟩), by decide⟩

theorem witness_StepKeepsTheHashAChainFromIv :
    { busy with h := compress iv abcBlock }.hashIsChain ∧ ∃ t, step { busy with h := compress iv abcBlock } = .next t :=
  ⟨⟨[abcBlock], rfl⟩, _, rfl⟩

/-- Two different pending operations over different data. -/
theorem witness_PendingOperationHidesTheData :
    let s : State := { busy with events := hostEvents (.access 0x480#12 0#32) }
    let s' : State := { s with pend := .encodeHex, h := abcHash, msg := abcBlock }
    s.pend ≠ .none ∧ s'.pend ≠ .none ∧ s.outlen = s'.outlen ∧ s.reads = s'.reads ∧ s.events = s'.events ∧
      (∃ t, step s = .next t) ∧ ∃ t, step s' = .next t := ⟨by decide, by decide, rfl, rfl, rfl, ⟨_, rfl⟩, _, rfl⟩

/-- A host that polls STATUS, with the ENGINE's turn before the poll and after it. -/
theorem witness_DisciplinedHostIsDeterministic :
    let poll : Event := .host (.access 0x404#12 0#32)
    let clear : Event := .host (.command 4#32)
    let es : List Event := [poll, .engine, clear]
    let s : State := { busy with events := [.engine, poll, clear] }
    outsideEvents s.events = outsideEvents es ∧ hazardFree s.events s ∧ hazardFree es { s with events := es } ∧
      (∃ t, Sys2Proof.core.run (s.events.length + 1) s = .next t) ∧
      ∃ t, Sys2Proof.core.run (es.length + 1) { s with events := es } = .next t := by
  refine ⟨by decide, ?_, ?_, ⟨_, rfl⟩, _, rfl⟩
  · refine ⟨trivial, fun t h => ?_⟩
    cases h
    refine ⟨.inl rfl, fun t h => ?_⟩
    cases h
    exact ⟨.inl rfl, fun _ _ => trivial⟩
  · refine ⟨.inr (.inl rfl), fun t h => ?_⟩
    cases h
    refine ⟨trivial, fun t h => ?_⟩
    cases h
    exact ⟨.inl rfl, fun _ _ => trivial⟩

theorem witness_RotrMovesEveryBit : (1 ≤ 1 ∧ 1 ≤ 31) ∧ (1 ≤ 31 ∧ 31 ≤ 31) ∧ 31 < 32 := by decide

/-- The one block of "abc" (its first and last words), and the second block of a 56-byte message. -/
theorem witness_BigEndianPacking : (blocks [0x61#8, 0x62#8, 0x63#8])[0]? = some abcBlock ∧
    ∃ w, (blocks (List.replicate 56 0x61#8))[1]? = some w ∧ w[15] = 0x000001C0#32 := by
  refine ⟨by decide +kernel, (Vector.replicate 16 0#32).set 15 0x000001C0#32, by decide +kernel, by decide⟩

theorem witness_ScheduleFollowsTheRecurrence : (16 ≤ 16 ∧ 16 ≤ 63) ∧ 16 ≤ 63 ∧ 63 ≤ 63 := by decide

theorem witness_SigmaFunctionsBitByBit : 0 < 32 ∧ 31 < 32 := by decide

theorem witness_ChoosesAndVotesBitByBit : 0 < 32 ∧ 31 < 32 := by decide

theorem witness_CompressIsSixtyFourRounds : 0 < 64 ∧ 63 < 64 := by decide

theorem witness_KRomIsFromTheCubeRootsOfThePrimes : 0 < 64 ∧ 63 < 64 := by decide

/-- The message "abc", its last byte, and the first and the last of its 52 zero bytes. -/
theorem witness_PaddingMakesWholeBlocks : let m : List Byte := [0x61#8, 0x62#8, 0x63#8]
    m.length < 2 ^ 61 ∧ 2 < m.length ∧ (m.length < 4 ∧ 4 + 8 < (pad m).length) ∧ (m.length < 55 ∧ 55 + 8 < (pad m).length) := by
  decide +kernel

/-- Both starts, from the reset state, whose H is IV; and a length at the limit, of a list that is never built. -/
theorem witness_DigestProcedureComputesTheDigest :
    (∃ es, digestProcedure .afterReset .hex (fun _ => 2) [0x61#8, 0x62#8, 0x63#8] = .ok es ∧
      { idle with events := es }.pend = .none ∧ idle.h = iv ∧ [0x61#8, 0x62#8, 0x63#8].length < 2 ^ 61) ∧
    (∃ es, digestProcedure .init .base64 (fun _ => 0) [] = .ok es) ∧
    2 ^ 61 ≤ (List.replicate (2 ^ 61) 0x61#8).length :=
  ⟨⟨_, rfl, rfl, rfl, by decide⟩, ⟨_, rfl⟩, by rw [List.length_replicate]⟩

theorem witness_DigestProgramMakesTheAccessesOfTheProcedure :
    (∃ ps, digestProgram .init .hash [0x61#8] = .ok ps) ∧ ∃ es, digestProcedure .init .hash (fun _ => 0) [0x61#8] = .ok es :=
  ⟨⟨_, rfl⟩, _, rfl⟩

theorem witness_DecodeEncodeRoundTrip : ∀ i ∈ [Instr.encodeBadFmt 15#4, .illegal 5#4 0#4 0#24, .wrMsg 15 7#32, .unmappedA0 .read 0xBC#8],
    i.wellFormed = true := by decide

theorem witness_EncodeDecodeRoundTrip : keySize 0x17F#12 = 1#3 ∧ keySize 0xA00#12 = 2#3 ∧ keySize 0xCFC#12 = 4#3 ∧
    keySize 0x000#12 ≠ 1#3 ∧ keySize 0x000#12 ≠ 2#3 ∧ keySize 0x000#12 ≠ 4#3 := by decide

theorem witness_HostStatementIsAMachineStep :
    [Stmt.rd .status "s", .bnz "s" 1#32 "w"][0]? = some (.rd .status "s") ∧
      (Stmt.rd .status "s").item = some (.access 0x404#12 0#32) := by decide

end Sys2Proof.Tests
end

/-! ## Proofs: steps and agents (spec/00_scope.md) -/

namespace Sys2Proof.Machine

/-- Settles O1: the step of the next event is its host step, and the host step of a decoded item is `exec`
(R5, R69, R80). -/
theorem stepRunsTheDecodedItem : Obligations.StepRunsTheDecodedItem := by
  intro s item es i he hd
  calc step s = hostStep item { s with events := es } := step_of_cons he
    _ = exec i { s with events := es } := hostStep_of_decode hd _

end Sys2Proof.Machine

/-! ## Proofs: state (spec/10_state.md) -/

namespace Sys2Proof.Machine

/-! ### The output and the hash state as one -/

/-- Freshness speaks of H and of the output only. -/
theorem State.outputFresh_congr {s t : State} (hh : t.h = s.h) (hb : t.outb = s.outb) (hl : t.outlen = s.outlen) :
    t.outputFresh ↔ s.outputFresh := by
  simp only [State.outputFresh, hh, hb, hl]

/-- A cleared output is fresh whatever H is. -/
theorem State.outputFresh_of_cleared {t : State} (hb : t.outb = Vector.replicate 64 0#8) (hl : t.outlen = 0#8) :
    t.outputFresh := .inl ⟨hl, hb⟩

/-- A command either leaves H and the output as they are, or clears the output. -/
theorem perform_keeps_outputFresh (c : Command) {s : State} (hs : s.outputFresh) : (perform c s).outputFresh := by
  cases c with
  | init => exact State.outputFresh_of_cleared rfl rfl
  | encode fmt =>
    obtain ⟨-, h⟩ | ⟨-, h⟩ | ⟨-, -, h⟩ := encodeIssue_cases fmt s <;> rw [perform, h]
    · exact (State.outputFresh_congr rfl rfl rfl).mpr hs
    · exact (State.outputFresh_congr rfl rfl rfl).mpr hs
    · exact State.outputFresh_of_cleared rfl rfl
  | _ => exact (State.outputFresh_congr rfl rfl rfl).mpr hs

/-- Of the effects of a host step only a command reaches H or the output. -/
theorem HostEffect.keeps_outputFresh {s t : State} (he : HostEffect s t) (hs : s.outputFresh) : t.outputFresh := by
  cases he with
  | command _ c => exact perform_keeps_outputFresh c hs
  | _ => exact (State.outputFresh_congr rfl rfl rfl).mpr hs

/-- A completed COMPRESS clears the output with its change of H, a completed ENCODE encodes the H it leaves. -/
theorem engineStep_keeps_outputFresh {s : State} (hs : s.outputFresh) : (engineStep s).outputFresh := by
  obtain ⟨-, h⟩ | ⟨-, h⟩ | ⟨-, h⟩ | ⟨-, h⟩ := engineStep_cases s <;> rw [h]
  · exact hs
  · exact State.outputFresh_of_cleared rfl rfl
  · exact .inr (.inl ⟨rfl, rfl⟩)
  · exact .inr (.inr ⟨rfl, rfl⟩)

/-- Settles O36: an ENGINE step, a RESET and a host step each keep the output fresh (R23, R24, R246). -/
theorem stepKeepsTheOutputFresh : Obligations.StepKeepsTheOutputFresh := by
  intro s t hs hst
  obtain ⟨-, rfl⟩ | ⟨es, -, rfl⟩ | ⟨es, -, rfl⟩ | ⟨item, es, -, hh⟩ := step_cases hst
  · exact engineStep_keeps_outputFresh hs
  · exact engineStep_keeps_outputFresh (s := { s with events := es }) hs
  · exact State.outputFresh_of_cleared rfl rfl
  · exact (hostStep_effect hh).keeps_outputFresh hs

/-- Past its characters a filled output buffer is zero. -/
theorem fillOut_of_length_le {c : List Byte} {k : Fin 64} (hk : c.length ≤ k.val) : (fillOut c)[k.val] = 0#8 := by
  simp [fillOut, hk]

/-- A Base64 output has 44 characters. -/
theorem b64Output_of_le {h : Vector Word 8} {k : Fin 64} (hk : 44 ≤ k.val) : (b64Output h)[k.val] = 0#8 := by
  unfold b64Output
  exact fillOut_of_length_le (by simpa using hk)

/-- Settles O37: an empty output is zero everywhere, a hex one fills OUTB, a Base64 one is zero from character 44 (R24). -/
theorem freshOutputIsZeroPastItsLength : Obligations.FreshOutputIsZeroPastItsLength := by
  rintro s (⟨hl, hb⟩ | ⟨hl, hb⟩ | ⟨hl, hb⟩)
  · exact ⟨.inl hl, fun k _ => by simp [hb]⟩
  · refine ⟨.inr (.inr hl), fun k hk => ?_⟩
    have h64 : (64#8).toNat ≤ k.val := hl ▸ hk
    exact absurd h64 (Nat.not_le.mpr k.isLt)
  · refine ⟨.inr (.inl hl), fun k hk => ?_⟩
    have h44 : 44 ≤ k.val := by simpa [hl] using hk
    simpa only [hb] using b64Output_of_le h44

/-- Settles O39: at reset the output is empty and H is IV, the chain of no blocks (R36). -/
theorem resetMeetsTheInvariants : Obligations.ResetMeetsTheInvariants :=
  ⟨State.outputFresh_of_cleared rfl rfl, [], rfl⟩

/-- Settles O5: every element as the reset state is defined; a constant vector has its constant at every index (R36). -/
theorem resetValues : Obligations.ResetValues :=
  ⟨rfl, fun _ => Vector.getElem_replicate _, fun _ => Vector.getElem_replicate _, rfl, rfl, rfl, rfl, rfl, rfl, by decide⟩

/-! ### The STATUS word -/

/-- STATUS bit by bit (R26): BUSY, the four flags in the order of R221, three zeros, OUTLEN, zeros. -/
theorem State.status_getLsbD (s : State) (k : Nat) : s.status.getLsbD k =
    if k = 0 then s.busy else if k = 1 then s.errAddr else if k = 2 then s.errBusy else if k = 3 then s.errCmd
    else if k = 4 then s.errFmt else if k < 8 then false else s.outlen.getLsbD (k - 8) := by
  simp only [State.status, BitVec.getLsbD_append, BitVec.getLsbD_ofBool, BitVec.getLsbD_zero]
  rcases Nat.lt_or_ge k 8 with hk | hk
  · interval_cases k <;> rfl
  · have hpast : ¬ k - 8 < 8 → s.outlen.getLsbD (k - 8) = false := fun h => BitVec.getLsbD_of_ge _ _ (Nat.not_lt.mp h)
    simp (disch := omega) only [if_neg]
    grind

theorem State.status_reserved (s : State) : s.status.extractLsb' 5 3 = 0#3 ∧ s.status.extractLsb' 16 16 = 0#16 := by
  constructor <;> refine BitVec.eq_of_getLsbD_eq fun i hi => ?_
  · simp only [BitVec.getLsbD_extractLsb', s.status_getLsbD, BitVec.getLsbD_zero]
    grind
  · simp only [BitVec.getLsbD_extractLsb', s.status_getLsbD, BitVec.getLsbD_zero]
    grind

theorem State.status_outlen (s : State) : s.status.extractLsb' 8 8 = s.outlen := by
  refine BitVec.eq_of_getLsbD_eq fun i hi => ?_
  simp only [BitVec.getLsbD_extractLsb', s.status_getLsbD]
  grind

/-- Settles O21: the word recorded is STATUS, field by field (R26, R186). -/
theorem readStatusReturnsTheFields : Obligations.ReadStatusReturnsTheFields := by
  intro s
  obtain ⟨hlow, hhigh⟩ := s.status_reserved
  refine ⟨s.status, rfl, ?_, s.status_getLsbD 1, s.status_getLsbD 2, s.status_getLsbD 3, s.status_getLsbD 4, hlow,
    s.status_outlen, hhigh⟩
  rw [s.status_getLsbD]
  exact s.busy_iff

/-! ### The ROMs -/

/-- The first 64 primes. -/
def firstPrimes : List Nat :=
  [2, 3, 5, 7, 11, 13, 17, 19, 23, 29, 31, 37, 41, 43, 47, 53, 59, 61, 67, 71, 73, 79, 83, 89, 97, 101, 103, 107, 109, 113, 127, 131,
    137, 139, 149, 151, 157, 163, 167, 173, 179, 181, 191, 193, 197, 199, 211, 223, 227, 229, 233, 239, 241, 251, 257, 263, 269, 271,
    277, 281, 283, 293, 307, 311]

/-- Below 18 * 18 a number is prime when no other number from 2 to 17 divides it; unlike `Nat.minFac`, the kernel evaluates
this fast. -/
theorem prime_iff_trialDivision {n : Nat} (hn : n < 18 * 18) :
    n.Prime ↔ 2 ≤ n ∧ ∀ m < 18, 2 ≤ m → m ∣ n → m = n := by
  constructor
  · intro hp
    exact ⟨hp.two_le, fun m _ hm hd => (hp.eq_one_or_self_of_dvd m hd).resolve_left (by omega)⟩
  · rintro ⟨h2, hdiv⟩
    refine Nat.prime_def_le_sqrt.mpr ⟨h2, fun m hm hsqrt hd => ?_⟩
    have hlt : m < 18 := hsqrt.trans_lt (Nat.sqrt_lt.mpr hn)
    have hself : n.sqrt < n := Nat.sqrt_lt_self h2
    have := hdiv m hlt hm hd
    omega

theorem filter_prime_range : (List.range 312).filter (fun n => decide n.Prime) = firstPrimes := by
  calc (List.range 312).filter (fun n => decide n.Prime)
      = (List.range 312).filter (fun n => decide (2 ≤ n ∧ ∀ m < 18, 2 ≤ m → m ∣ n → m = n)) :=
        List.filter_congr fun n hn => by
          have := List.mem_range.mp hn
          simp only [prime_iff_trialDivision (n := n) (by omega)]
    _ = firstPrimes := by decide +kernel

/-- The members of `p` below `N`, listed in order, are numbered as `Nat.nth` numbers them. -/
theorem getElem?_filter_range_eq_nth (p : Nat → Prop) [DecidablePred p] {N i v : Nat}
    (hi : ((List.range N).filter p)[i]? = some v) : Nat.nth p i = v := by
  induction N with
  | zero => simp at hi
  | succ N ih =>
    rw [List.range_succ, List.filter_append, List.getElem?_append] at hi
    split at hi
    · exact ih hi
    · next hlen =>
      by_cases hN : p N
      · simp only [hN, decide_true, List.filter_cons_of_pos, List.filter_nil, List.getElem?_singleton, Option.ite_none_right_eq_some,
          Option.some.injEq] at hi
        obtain ⟨h0, rfl⟩ := hi
        have hcount : i = Nat.count p N := by
          rw [Nat.count, List.countP_eq_length_filter]
          omega
        rw [hcount, Nat.nth_count hN]
      · simp [hN] at hi

/-- Prime number `i` is entry `i` of the list. -/
theorem nth_prime_eq (i : Fin 64) : Nat.nth Nat.Prime i.val = firstPrimes.getD i.val 0 := by
  have hlt : i.val < firstPrimes.length := i.isLt
  refine getElem?_filter_range_eq_nth Nat.Prime (N := 312) ?_
  rw [filter_prime_range, List.getElem?_eq_getElem hlt, List.getD_eq_getElem _ _ hlt]

/-- K is the integer cube roots of the first 64 primes, scaled and cut to a word. -/
theorem kRom_getD : ∀ i : Fin 64,
    kRom.getD i.val 0#32 = BitVec.ofNat 32 (Nat.nthRoot 3 (firstPrimes.getD i.val 0 * 2 ^ 96)) := by decide +kernel

/-- IV is the integer square roots of the first 8 primes, scaled and cut to a word. -/
theorem iv_getElem : ∀ j : Fin 8,
    iv[j.val] = BitVec.ofNat 32 (Nat.sqrt (firstPrimes.getD j.val 0 * 2 ^ 64)) := by decide +kernel

/-- Settles O47: the root is `Nat.nthRoot 3`, and prime number `i` is entry `i` of the list (R31). -/
theorem kRomIsFromTheCubeRootsOfThePrimes : Obligations.KRomIsFromTheCubeRootsOfThePrimes := by
  refine ⟨rfl, fun i hi => ⟨Nat.nthRoot 3 (Nat.nth Nat.Prime i * 2 ^ 96), ?_, ?_, ?_⟩⟩
  · exact Nat.pow_nthRoot_le (.inl three_ne_zero)
  · exact Nat.lt_pow_nthRoot_add_one three_ne_zero _
  · rw [nth_prime_eq ⟨i, hi⟩]
    exact kRom_getD ⟨i, hi⟩

/-- Settles O48: the root is `Nat.sqrt`, and prime number `j` is entry `j` of the list (R32). -/
theorem ivRomIsFromTheSquareRootsOfThePrimes : Obligations.IvRomIsFromTheSquareRootsOfThePrimes := by
  refine fun j => ⟨Nat.sqrt (Nat.nth Nat.Prime j.val * 2 ^ 64), Nat.sqrt_le' _, Nat.lt_succ_sqrt' _, ?_⟩
  rw [nth_prime_eq ⟨j.val, by omega⟩]
  exact iv_getElem j

/-! ### What a host access can change, and by which instruction -/

/-- The command an instruction carries: each C row its own, WR.CMD that of its word (R80, R182). -/
def commandOf : Instr → Option Command
  | .nop => some .nop
  | .init => some .init
  | .compress => some .compress
  | .encodeHex => some (.encode 0#4)
  | .encodeB64 => some (.encode 1#4)
  | .encodeBadFmt fmt => some (.encode fmt)
  | .clrErr => some .clrErr
  | .illegal _ _ _ => some .illegal
  | .wrCmd w => some (decodeCmd w)
  | .badSize1 _ _ | .badSize2 _ _ | .badAlign1 _ _ | .badAlign2 _ _ | .rdCmd | .rdStatus | .wrStatus _ | .rdId | .wrId _
  | .unmapped0C _ | .unmapped10 _ _ | .unmapped20 _ _ | .wrMsg _ _ | .rdMsg _ | .rdHash _ | .wrHash _ _ | .unmappedA0 _ _
  | .rdOut _ | .wrOut _ _ => none

theorem commandOf_init {i : Instr} (h : commandOf i = some .init) : i = .init ∨ i = .wrCmd 1#32 := by
  cases i with
  | wrCmd w => exact .inr (congrArg Instr.wrCmd (word_of_init (Option.some.inj h)))
  | _ => simp_all [commandOf]

theorem commandOf_compress {i : Instr} (h : commandOf i = some .compress) : i = .compress ∨ i = .wrCmd 2#32 := by
  cases i with
  | wrCmd w => exact .inr (congrArg Instr.wrCmd (word_of_compress (Option.some.inj h)))
  | _ => simp_all [commandOf]

theorem commandOf_clrErr {i : Instr} (h : commandOf i = some .clrErr) : i = .clrErr ∨ i = .wrCmd 4#32 := by
  cases i with
  | wrCmd w => exact .inr (congrArg Instr.wrCmd (word_of_clrErr (Option.some.inj h)))
  | _ => simp_all [commandOf]

theorem commandOf_encode {i : Instr} {fmt : BitVec 4} (h : commandOf i = some (.encode fmt)) :
    (i = .encodeHex ∧ fmt = 0#4) ∨ (i = .encodeB64 ∧ fmt = 1#4) ∨ i = .encodeBadFmt fmt ∨ i = .wrCmd (0#24 ++ fmt ++ 3#4) := by
  cases i with
  | wrCmd w => exact .inr (.inr (.inr (congrArg Instr.wrCmd (word_of_encode (Option.some.inj h)))))
  | _ => simp_all [commandOf]

/-- The words of FMT 2 to 15 are the bad-format words. -/
theorem badFmtWord_of_fmt {fmt : BitVec 4} (h : 2#4 ≤ fmt) : badFmtWord (0#24 ++ fmt ++ 3#4) :=
  ⟨rsv_field _ _ _, op_field _ _ _, (fmt_field 3#4 fmt 0#24).symm ▸ h⟩

/-- Nothing changes but that error flags may be raised and that one read may be recorded. -/
structure OnlySignals (s t : State) : Prop where
  h : t.h = s.h
  msg : t.msg = s.msg
  outb : t.outb = s.outb
  outlen : t.outlen = s.outlen
  pend : t.pend = s.pend
  events : t.events = s.events
  flag : ∀ f : ErrFlag, s.flag f = true → t.flag f = true
  reads : t.reads = s.reads ∨ ∃ r, t.reads = s.reads ++ [r]

theorem onlySignals_raise (e : ErrFlag) (s : State) : OnlySignals s (s.raise e) :=
  ⟨rfl, rfl, rfl, rfl, rfl, rfl, fun _ => raise_keeps, .inl rfl⟩

theorem onlySignals_record (off : BitVec 8) (size : BitVec 3) (v : Word) (s : State) : OnlySignals s (s.record off size v) :=
  ⟨rfl, rfl, rfl, rfl, rfl, rfl, fun _ => id, .inr ⟨_, rfl⟩⟩

theorem onlySignals_raise_record (e : ErrFlag) (off : BitVec 8) (size : BitVec 3) (v : Word) (s : State) :
    OnlySignals s ((s.raise e).record off size v) :=
  ⟨rfl, rfl, rfl, rfl, rfl, rfl, fun f hf => (onlySignals_record off size v _).flag f (raise_keeps hf), .inr ⟨_, rfl⟩⟩

theorem badAccess_onlySignals (x : Xfer) (size : BitVec 3) (off : BitVec 8) (s : State) :
    OnlySignals s (badAccess x size off s) := by
  obtain ⟨-, h⟩ | ⟨-, h⟩ := badAccess_cases x size off s <;> rw [h]
  · exact onlySignals_raise_record _ _ _ _ _
  · exact onlySignals_raise _ _

theorem readWhenIdle_onlySignals (off : BitVec 8) (v : Word) (s : State) : OnlySignals s (readWhenIdle off v s) := by
  by_cases hp : s.pend = .none
  · rw [readWhenIdle_idle hp]
    exact onlySignals_record _ _ _ _
  · rw [readWhenIdle_busy hp]
    exact onlySignals_raise_record _ _ _ _ _

/-- What a host access can do, tied to what it is: a command it carries is performed, or a word it stores is written to MSG, each only
while nothing is pending; anything else only signals. -/
inductive AccessEffect (carries : Command → Prop) (stores : Fin 16 → Word → Prop) (s : State) : State → Prop where
  | performs (hp : s.pend = .none) (c : Command) (hc : carries c) : AccessEffect carries stores s (perform c s)
  | writesMsg (hp : s.pend = .none) (k : Fin 16) (v : Word) (hm : stores k v) : AccessEffect carries stores s (s.setMsg k v)
  | signals {t : State} (ht : OnlySignals s t) : AccessEffect carries stores s t

/-- The gate performs the command or drops it with ERR_BUSY. -/
theorem whenIdle_perform_accessEffect {carries : Command → Prop} {stores : Fin 16 → Word → Prop} {c : Command} (hc : carries c)
    (s : State) : AccessEffect carries stores s (whenIdle (perform c) s) := by
  obtain ⟨hp, h⟩ | ⟨-, h⟩ := whenIdle_cases (perform c) s <;> rw [h]
  · exact .performs hp c hc
  · exact .signals (onlySignals_raise _ _)

/-- The gate writes the word or drops it with ERR_BUSY. -/
theorem whenIdle_setMsg_accessEffect {carries : Command → Prop} {stores : Fin 16 → Word → Prop} {k : Fin 16} {v : Word}
    (hm : stores k v) (s : State) : AccessEffect carries stores s (whenIdle (State.setMsg k v) s) := by
  obtain ⟨hp, h⟩ | ⟨-, h⟩ := whenIdle_cases (State.setMsg k v) s <;> rw [h]
  · exact .writesMsg hp k v hm
  · exact .signals (onlySignals_raise _ _)

theorem AccessEffect.imp {carries carries' : Command → Prop} {stores stores' : Fin 16 → Word → Prop} {s t : State}
    (he : AccessEffect carries stores s t) (hc : ∀ c, carries c → carries' c) (hm : ∀ k v, stores k v → stores' k v) :
    AccessEffect carries' stores' s t := by
  cases he with
  | performs hp c h => exact .performs hp c (hc c h)
  | writesMsg hp k v h => exact .writesMsg hp k v (hm k v h)
  | signals ht => exact .signals ht

/-- An instruction that carries a command performs it behind the BUSY gate. -/
theorem exec_of_commandOf {i : Instr} {c : Command} (h : commandOf i = some c) (s : State) :
    exec i s = .next (whenIdle (perform c) s) := by
  cases i <;> cases h <;> rfl

/-- Every instruction does what the command it carries or the MSG write it is does, or only signals. -/
theorem exec_accessEffect {i : Instr} {s t : State} (h : exec i s = .next t) :
    AccessEffect (fun c => commandOf i = some c) (fun k v => i = .wrMsg k v) s t := by
  obtain hc | ⟨c, hc⟩ := (commandOf i).eq_none_or_eq_some
  · cases i
    case wrMsg k v =>
      cases h
      exact whenIdle_setMsg_accessEffect rfl s
    case badSize1 | badSize2 | badAlign1 | badAlign2 | unmapped0C | unmapped10 | unmapped20 | unmappedA0 =>
      cases h
      exact .signals (badAccess_onlySignals _ _ _ s)
    case rdMsg | rdHash | rdOut =>
      cases h
      exact .signals (readWhenIdle_onlySignals _ _ s)
    case rdCmd | rdStatus | rdId =>
      cases h
      exact .signals (onlySignals_record _ _ _ s)
    case wrStatus | wrId | wrHash | wrOut =>
      cases h
      exact .signals (onlySignals_raise _ s)
    all_goals cases hc
  · rw [exec_of_commandOf hc] at h
    cases h
    exact whenIdle_perform_accessEffect hc s

/-! ### Which host item carries a command or stores a word -/

/-- The item is one of the two forms of the command's word: the word on CMD, or the access that writes it to CMD (R80, R182). -/
def itemCarries (item : HostItem) (c : Command) : Prop :=
  ∃ w : Word, (item = .command w ∨ item = .access 0xC00#12 w) ∧ decodeCmd w = c

/-- The item is the four-byte write of `v` to MSG[k] (R61, R183). -/
def itemStores (item : HostItem) (k : Fin 16) (v : Word) : Prop :=
  item = .access (BitVec.ofNat 12 (0xC40 + 4 * k.val)) v

/-- A word that matches the mask of ENCODE's row has a zero RSV. -/
theorem rsv_of_encodeMask {w : Word} (h : w &&& 0xFFFFFF0F#32 = 0x00000003#32) : w.extractLsb' 8 24 = 0#24 := by
  have hrsv := congrArg (BitVec.extractLsb' 8 24) h
  rwa [BitVec.extractLsb'_and, show (0xFFFFFF0F#32).extractLsb' 8 24 = BitVec.allOnes 24 by decide, BitVec.and_allOnes] at hrsv

/-- A word with a nonzero RSV falls in the table's last row, ILLEGAL. -/
theorem decodeCommandRow_of_rsv {w : Word} (h : w.extractLsb' 8 24 ≠ 0#24) :
    decodeCommandRow w = .illegal (w.extractLsb' 0 4) (w.extractLsb' 4 4) (w.extractLsb' 8 24) := by
  have hne : ∀ x : Word, x.extractLsb' 8 24 = 0#24 → w ≠ x := fun x hx hw => h (hw ▸ hx)
  have hmask : w &&& 0xFFFFFF0F#32 ≠ 0x00000003#32 := fun hw => h (rsv_of_encodeMask hw)
  simp only [decodeCommandRow, if_neg hmask, if_neg (hne 0#32 (by decide)), if_neg (hne 1#32 (by decide)),
    if_neg (hne 2#32 (by decide)), if_neg (hne 3#32 (by decide)), if_neg (hne 0x13#32 (by decide)), if_neg (hne 4#32 (by decide))]

/-- The C row of a word carries the command of R84. -/
theorem commandOf_decodeCommandRow (w : Word) : commandOf (decodeCommandRow w) = some (decodeCmd w) := by
  by_cases hrsv : w.extractLsb' 8 24 = 0#24
  · refine forall_lt_256 (P := fun w => commandOf (decodeCommandRow w) = some (decodeCmd w)) ?_ (lt_256_of_rsv hrsv)
    decide +kernel
  · rw [decodeCommandRow_of_rsv hrsv, decodeCmd_of_rsv hrsv, commandOf]

/-- The one key of WR.CMD, and the key of each MSG write. -/
theorem key_of_writeRow : ∀ key : BitVec 12, (keyRow key = 4 → key = 0xC00#12) ∧
    (keyRow key = 13 → key = BitVec.ofNat 12 (0xC40 + 4 * (Fin.ofNat 16 (regIndex 0x40#8 (keyOff key))).val)) := by
  decide +kernel

/-- The only access that carries a command is WR.CMD. -/
theorem access_of_commandOf {key : BitVec 12} {data : Word} {i : Instr} {c : Command}
    (hd : decode (.access key data) = .ok i) (hc : commandOf i = some c) : key = 0xC00#12 ∧ decodeCmd data = c := by
  rw [decode, decodeAccessRow_eq] at hd
  generalize hrow : keyRow key = row at hd
  unfold rowInstr at hd
  split at hd <;> cases hd <;> cases hc
  exact ⟨(key_of_writeRow key).1 hrow, rfl⟩

theorem access_of_wrMsg {key : BitVec 12} {data v : Word} {k : Fin 16} (hd : decode (.access key data) = .ok (.wrMsg k v)) :
    itemStores (.access key data) k v := by
  rw [decode, decodeAccessRow_eq] at hd
  generalize hrow : keyRow key = row at hd
  unfold rowInstr at hd
  split at hd <;> cases hd
  exact congrArg (HostItem.access · data) ((key_of_writeRow key).2 hrow)

/-- An access without a row has not the size 4. -/
theorem keySize_of_decode_error {key : BitVec 12} {data : Word} {r : DecodeReject}
    (hd : decode (.access key data) = .error r) : keySize key ≠ 4#3 := by
  intro h4
  obtain ⟨hle, hrow⟩ := keyRow_range key
  have hlt : keyRow key < 20 := lt_of_le_of_ne hle (hrow.mpr (.inr (.inr h4)))
  rw [decode, decodeAccessRow_eq] at hd
  generalize keyRow key = row at hd hlt
  interval_cases row <;> cases hd

/-- By the general rules too an access of another size than 4 is malformed (R88, R180, R181). -/
theorem busAccess_of_size {size : BitVec 3} (h : size ≠ 4#3) (x : Xfer) (off : BitVec 8) (s : State) :
    busAccess x size off s = badAccess x size off s := by
  have hbad : decodeAccess off size = .bad := if_pos (.inl h)
  cases x <;> simp only [busAccess, busWrite, busRead, hbad, badAccess]

/-- A host step does what the command its item carries or the word it stores does, or only signals. -/
theorem hostStep_accessEffect {item : HostItem} {s t : State} (h : hostStep item s = .next t) :
    AccessEffect (itemCarries item) (itemStores item) s t := by
  cases item with
  | command w =>
    have hd : decode (.command w) = .ok (decodeCommandRow w) := rfl
    rw [hostStep_of_decode hd, exec_of_commandOf (commandOf_decodeCommandRow w)] at h
    cases h
    exact whenIdle_perform_accessEffect ⟨w, .inl rfl, rfl⟩ s
  | access key data =>
    cases hd : decode (.access key data) with
    | ok i =>
      rw [hostStep_of_decode hd] at h
      refine (exec_accessEffect h).imp (fun c hc => ?_) (fun k v hi => access_of_wrMsg (hi ▸ hd))
      obtain ⟨hkey, hdata⟩ := access_of_commandOf hd hc
      exact ⟨data, .inr (hkey ▸ rfl), hdata⟩
    | error r =>
      simp only [hostStep, hd, busAccess_of_size (keySize_of_decode_error hd)] at h
      cases h
      exact .signals (badAccess_onlySignals _ _ _ s)

/-! ### What each change comes from -/

theorem perform_msg (c : Command) (s : State) : (perform c s).msg = s.msg := by
  obtain h | h | h | h | h | h | h | h := perform_cases c s <;> simp [h]

theorem perform_reads (c : Command) (s : State) : (perform c s).reads = s.reads := by
  obtain h | h | h | h | h | h | h | h := perform_cases c s <;> simp [h]

theorem command_of_h_changed {c : Command} {s : State} (hne : (perform c s).h ≠ s.h) : c = .init := by
  cases c with
  | init => rfl
  | encode fmt => obtain ⟨-, h⟩ | ⟨-, h⟩ | ⟨-, -, h⟩ := encodeIssue_cases fmt s <;> simp [perform, h] at hne
  | _ => exact absurd rfl hne

theorem command_of_out_changed {c : Command} {s : State} (hne : (perform c s).outb ≠ s.outb ∨ (perform c s).outlen ≠ s.outlen) :
    c = .init ∨ ∃ fmt, 2#4 ≤ fmt ∧ c = .encode fmt := by
  cases c with
  | init => exact .inl rfl
  | encode fmt =>
    obtain ⟨-, h⟩ | ⟨-, h⟩ | ⟨h0, h1, -⟩ := encodeIssue_cases fmt s
    · simp [perform, h] at hne
    · simp [perform, h] at hne
    · have hfmt : ∀ f : BitVec 4, f ≠ 0#4 → f ≠ 1#4 → 2#4 ≤ f := by decide
      exact .inr ⟨fmt, hfmt fmt h0 h1, rfl⟩
  | _ => exact absurd hne (not_or.mpr ⟨not_not.mpr rfl, not_not.mpr rfl⟩)

theorem command_of_pend_changed {c : Command} {s : State} (hne : (perform c s).pend ≠ s.pend) :
    c = .compress ∨ c = .encode 0#4 ∨ c = .encode 1#4 := by
  cases c with
  | compress => exact .inl rfl
  | encode fmt =>
    obtain ⟨rfl, -⟩ | ⟨rfl, -⟩ | ⟨-, -, h⟩ := encodeIssue_cases fmt s
    · exact .inr (.inl rfl)
    · exact .inr (.inr rfl)
    · simp [perform, h] at hne
  | _ => exact absurd rfl hne

theorem command_of_flag_cleared {c : Command} {s : State} {f : ErrFlag} (hs : s.flag f = true)
    (ht : (perform c s).flag f = false) : c = .clrErr := by
  cases c with
  | clrErr => rfl
  | illegal => exact absurd (raise_keeps hs) (Bool.eq_false_iff.mp ht)
  | encode fmt =>
    obtain ⟨-, h⟩ | ⟨-, h⟩ | ⟨-, -, h⟩ := encodeIssue_cases fmt s <;> rw [perform, h] at ht
    · exact absurd hs (Bool.eq_false_iff.mp ht)
    · exact absurd hs (Bool.eq_false_iff.mp ht)
    · exact absurd (raise_keeps (s := s.clearOut) hs) (Bool.eq_false_iff.mp ht)
  | _ => exact absurd hs (Bool.eq_false_iff.mp ht)

section
variable {carries : Command → Prop} {stores : Fin 16 → Word → Prop} {s t : State}

theorem AccessEffect.h_changed (he : AccessEffect carries stores s t) (hne : t.h ≠ s.h) :
    s.pend = .none ∧ carries .init ∧ t.h = iv := by
  cases he with
  | performs hp c hc =>
    obtain rfl := command_of_h_changed hne
    exact ⟨hp, hc, rfl⟩
  | writesMsg => exact absurd rfl hne
  | signals ht => exact absurd ht.h hne

theorem AccessEffect.msg_changed (he : AccessEffect carries stores s t) (hne : t.msg ≠ s.msg) :
    s.pend = .none ∧ ∃ k v, stores k v ∧ t.msg = s.msg.set k.val v := by
  cases he with
  | performs hp c => exact absurd (perform_msg c s) hne
  | writesMsg hp k v hm => exact ⟨hp, k, v, hm, rfl⟩
  | signals ht => exact absurd ht.msg hne

theorem AccessEffect.out_changed (he : AccessEffect carries stores s t) (hne : t.outb ≠ s.outb ∨ t.outlen ≠ s.outlen) :
    carries .init ∨ ∃ fmt, 2#4 ≤ fmt ∧ carries (.encode fmt) := by
  cases he with
  | performs hp c hc =>
    obtain rfl | ⟨fmt, hfmt, rfl⟩ := command_of_out_changed hne
    · exact .inl hc
    · exact .inr ⟨fmt, hfmt, hc⟩
  | writesMsg => simp at hne
  | signals ht => simp [ht.outb, ht.outlen] at hne

theorem AccessEffect.pend_changed (he : AccessEffect carries stores s t) (hne : t.pend ≠ s.pend) :
    s.pend = .none ∧ (carries .compress ∨ carries (.encode 0#4) ∨ carries (.encode 1#4)) := by
  cases he with
  | performs hp c hc =>
    obtain rfl | rfl | rfl := command_of_pend_changed hne
    · exact ⟨hp, .inl hc⟩
    · exact ⟨hp, .inr (.inl hc)⟩
    · exact ⟨hp, .inr (.inr hc)⟩
  | writesMsg => exact absurd rfl hne
  | signals ht => exact absurd ht.pend hne

theorem AccessEffect.flag_cleared (he : AccessEffect carries stores s t) {f : ErrFlag} (hs : s.flag f = true)
    (ht : t.flag f = false) : s.pend = .none ∧ carries .clrErr := by
  cases he with
  | performs hp c hc =>
    obtain rfl := command_of_flag_cleared hs ht
    exact ⟨hp, hc⟩
  | writesMsg => exact absurd hs (Bool.eq_false_iff.mp ht)
  | signals hsig => exact absurd (hsig.flag f hs) (Bool.eq_false_iff.mp ht)

theorem AccessEffect.events (he : AccessEffect carries stores s t) : t.events = s.events := by
  cases he with
  | performs hp c => exact perform_events c s
  | writesMsg => rfl
  | signals ht => exact ht.events

theorem AccessEffect.reads (he : AccessEffect carries stores s t) : t.reads = s.reads ∨ ∃ r, t.reads = s.reads ++ [r] := by
  cases he with
  | performs hp c => exact .inl (perform_reads c s)
  | writesMsg => exact .inl rfl
  | signals ht => exact ht.reads

end

/-- The ENGINE changes H by a completed COMPRESS only. -/
theorem engineStep_h_changed {s : State} (hne : (engineStep s).h ≠ s.h) :
    s.pend = .compress ∧ (engineStep s).h = compress s.h s.msg := by
  obtain ⟨-, h⟩ | ⟨hp, h⟩ | ⟨-, h⟩ | ⟨-, h⟩ := engineStep_cases s <;> rw [h] at hne ⊢
  · exact absurd rfl hne
  · exact ⟨hp, by simp⟩
  · simp at hne
  · simp at hne

/-- The events in front that carry a command with one word. -/
theorem event_of_itemCarries {item : HostItem} {c : Command} {w : Word} {s : State} {es : List Event}
    (hw : ∀ {x : Word}, decodeCmd x = c → x = w) (he : s.events = .host item :: es) (hc : itemCarries item c) :
    ∃ es, s.events = .host (.command w) :: es ∨ s.events = .host (.access 0xC00#12 w) :: es := by
  obtain ⟨x, hitem, hx⟩ := hc
  obtain rfl := hw hx
  obtain rfl | rfl := hitem
  · exact ⟨es, .inl he⟩
  · exact ⟨es, .inr he⟩

/-- Settles O31: no ENGINE step touches a flag, and of what the host can do only CLRERR clears one (R27, R223). -/
theorem errorFlagsAreSticky : Obligations.ErrorFlagsAreSticky := by
  intro s t f hst hs ht
  obtain ⟨-, rfl⟩ | ⟨es, -, rfl⟩ | ⟨es, he, rfl⟩ | ⟨item, es, he, hh⟩ := step_cases hst
  · exact absurd ((engineStep_flag s f).trans hs) (Bool.eq_false_iff.mp ht)
  · exact absurd ((engineStep_flag { s with events := es } f).trans hs) (Bool.eq_false_iff.mp ht)
  · exact .inl ⟨es, he⟩
  · obtain ⟨hp, hc⟩ := (hostStep_accessEffect hh).flag_cleared (f := f) hs ht
    exact .inr ⟨hp, event_of_itemCarries word_of_clrErr he hc⟩

/-- Settles O34: a RESET and an INIT load IV, and the ENGINE changes H only to complete a COMPRESS (R21). -/
theorem hashIsWrittenByThreeEventsOnly : Obligations.HashIsWrittenByThreeEventsOnly := by
  intro s t hst hne
  obtain ⟨he, rfl⟩ | ⟨es, he, rfl⟩ | ⟨es, he, rfl⟩ | ⟨item, es, he, hh⟩ := step_cases hst
  · obtain ⟨hp, hh⟩ := engineStep_h_changed hne
    exact .inr (.inr ⟨hh, hp, .inl he⟩)
  · obtain ⟨hp, hh⟩ := engineStep_h_changed (s := { s with events := es }) hne
    exact .inr (.inr ⟨hh, hp, .inr ⟨es, he⟩⟩)
  · exact .inl ⟨rfl, es, he⟩
  · obtain ⟨hp, hc, hh⟩ := (hostStep_accessEffect hh).h_changed hne
    exact .inr (.inl ⟨hh, hp, event_of_itemCarries word_of_init he hc⟩)

/-- Settles O35: no ENGINE step and no command touches MSG, so the host's write of one word and RESET are left (R22, R183). -/
theorem msgIsWrittenByTheHostOnly : Obligations.MsgIsWrittenByTheHostOnly := by
  intro s t hst hne
  obtain ⟨-, rfl⟩ | ⟨es, -, rfl⟩ | ⟨es, he, rfl⟩ | ⟨item, es, he, hh⟩ := step_cases hst
  · exact absurd (engineStep_msg s) hne
  · exact absurd (engineStep_msg { s with events := es }) hne
  · exact .inl ⟨rfl, es, he⟩
  · obtain ⟨hp, k, v, hitem, hmsg⟩ := (hostStep_accessEffect hh).msg_changed hne
    exact .inr ⟨hp, k, v, es, hmsg, he.trans (by rw [hitem])⟩

/-- An instruction that changes the output is INIT or a bad-format ENCODE, as a C row or as WR.CMD. -/
theorem instr_of_out_changed {i : Instr} (h : commandOf i = some .init ∨ ∃ fmt, 2#4 ≤ fmt ∧ commandOf i = some (.encode fmt)) :
    i = .init ∨ i = .wrCmd 1#32 ∨ (∃ fmt, i = .encodeBadFmt fmt) ∨ ∃ w, i = .wrCmd w ∧ badFmtWord w := by
  obtain hc | ⟨fmt, hfmt, hc⟩ := h
  · obtain hi | hi := commandOf_init hc
    · exact .inl hi
    · exact .inr (.inl hi)
  · obtain ⟨-, rfl⟩ | ⟨-, rfl⟩ | hi | hi := commandOf_encode hc
    · exact absurd hfmt (by decide)
    · exact absurd hfmt (by decide)
    · exact .inr (.inr (.inl ⟨fmt, hi⟩))
    · exact .inr (.inr (.inr ⟨_, hi, badFmtWord_of_fmt hfmt⟩))

/-- An instruction that sets PEND is COMPRESS or an ENCODE of format 0 or 1, as a C row or as WR.CMD. -/
theorem instr_of_pend_changed {i : Instr}
    (h : commandOf i = some .compress ∨ commandOf i = some (.encode 0#4) ∨ commandOf i = some (.encode 1#4)) :
    i = .compress ∨ i = .encodeHex ∨ i = .encodeB64 ∨ i = .wrCmd 2#32 ∨ i = .wrCmd 3#32 ∨ i = .wrCmd 0x13#32 ∨
      (∃ fmt, i = .encodeBadFmt fmt ∧ ¬ 2#4 ≤ fmt) := by
  obtain hc | hc | hc := h
  · obtain hi | hi := commandOf_compress hc <;> simp [hi]
  · obtain ⟨hi, -⟩ | ⟨hi, -⟩ | hi | hi := commandOf_encode hc <;> simp [hi]
  · obtain ⟨hi, -⟩ | ⟨hi, -⟩ | hi | hi := commandOf_encode hc <;> simp [hi]

/-- Settles O33: each change is one of the effects an instruction can have, and names the instruction that has it
(R21 to R24, R27, R30). -/
theorem execFrame : Obligations.ExecFrame := by
  intro i s t hex
  have he := exec_accessEffect hex
  refine ⟨he.events, fun hne => ?_, fun hne => ?_, fun hne => instr_of_out_changed (he.out_changed hne), fun hne => ?_, ?_, he.reads⟩
  · obtain ⟨-, hc, -⟩ := he.h_changed hne
    exact commandOf_init hc
  · obtain ⟨-, k, v, hi, hmsg⟩ := he.msg_changed hne
    refine ⟨k, v, hi, fun j hj => ?_⟩
    simp only [hmsg]
    exact Vector.getElem_set_ne _ _ fun h => hj (Fin.ext h.symm)
  · obtain ⟨hp, hc⟩ := he.pend_changed hne
    exact ⟨hp, instr_of_pend_changed hc⟩
  · rintro ⟨f, hs, ht⟩
    obtain ⟨-, hc⟩ := he.flag_cleared hs ht
    exact commandOf_clrErr hc

end Sys2Proof.Machine

/-! ## Proofs: memory (spec/20_memory.md) -/

namespace Sys2Proof.Machine

/-! ### The data behind the BUSY gate -/

/-- The state with the data and the pending operation of another: H, MSG, OUTB and PEND. -/
def State.withDataOf (s d : State) : State := { s with h := d.h, msg := d.msg, outb := d.outb, pend := d.pend }

/-- STATUS shows of the pending operation only that there is one (R26). -/
theorem State.status_withDataOf {s d : State} (hs : s.pend ≠ .none) (hd : d.pend ≠ .none) :
    (s.withDataOf d).status = s.status := by
  have hbusy : (s.withDataOf d).busy = s.busy :=
    ((State.busy_iff (s.withDataOf d)).mpr hd).trans (s.busy_iff.mpr hs).symm
  rw [State.status, hbusy]
  rfl

/-- A malformed access reads nothing of the state. -/
theorem badAccess_withDataOf (x : Xfer) (size : BitVec 3) (off : BitVec 8) (s d : State) :
    badAccess x size off (s.withDataOf d) = (badAccess x size off s).withDataOf d := by
  cases x <;> rfl

section
variable {s d : State} (hs : s.pend ≠ .none) (hd : d.pend ≠ .none)
include hs hd

/-- The closed gate drops the action whatever the data are. -/
theorem whenIdle_withDataOf (f : State → State) : whenIdle f (s.withDataOf d) = (whenIdle f s).withDataOf d := by
  rw [whenIdle_busy hs, whenIdle_busy (s := s.withDataOf d) hd]
  rfl

/-- A refused read records 0 whatever the register holds. -/
theorem readWhenIdle_withDataOf (off : BitVec 8) (v v' : Word) :
    readWhenIdle off v' (s.withDataOf d) = (readWhenIdle off v s).withDataOf d := by
  rw [readWhenIdle_busy hs, readWhenIdle_busy (s := s.withDataOf d) hd]
  rfl

/-- While an operation is pending no instruction's effect depends on the data. -/
theorem exec_withDataOf {i : Instr} {t : State} (h : exec i s = .next t) :
    exec i (s.withDataOf d) = .next (t.withDataOf d) := by
  obtain hc | ⟨c, hc⟩ := (commandOf i).eq_none_or_eq_some
  · cases i
    case wrMsg =>
      cases h
      exact congrArg _ (whenIdle_withDataOf hs hd _)
    case badSize1 | badSize2 | badAlign1 | badAlign2 | unmapped0C | unmapped10 | unmapped20 | unmappedA0 =>
      cases h
      exact congrArg _ (badAccess_withDataOf _ _ _ s d)
    case rdMsg | rdHash | rdOut =>
      cases h
      exact congrArg _ (readWhenIdle_withDataOf hs hd _ _ _)
    case rdStatus =>
      cases h
      rw [exec, execRdStatus, State.status_withDataOf hs hd]
      rfl
    case rdCmd | rdId | wrStatus | wrId | wrHash | wrOut =>
      cases h
      rfl
    all_goals cases hc
  · rw [exec_of_commandOf hc] at h
    cases h
    rw [exec_of_commandOf hc, whenIdle_withDataOf hs hd]

/-- While an operation is pending no host item's effect depends on the data. -/
theorem hostStep_withDataOf {item : HostItem} {t : State} (h : hostStep item s = .next t) :
    hostStep item (s.withDataOf d) = .next (t.withDataOf d) := by
  cases hdec : decode item with
  | ok i =>
    rw [hostStep_of_decode hdec] at h ⊢
    exact exec_withDataOf hs hd h
  | error r =>
    cases item with
    | command w => cases hdec
    | access key data =>
      simp only [hostStep, hdec, busAccess_of_size (keySize_of_decode_error hdec)] at h ⊢
      cases h
      rw [badAccess_withDataOf]

end

/-- While an operation is pending an access can only signal. -/
theorem AccessEffect.onlySignals_of_busy {carries : Command → Prop} {stores : Fin 16 → Word → Prop} {s t : State}
    (he : AccessEffect carries stores s t) (hp : s.pend ≠ .none) : OnlySignals s t := by
  cases he with
  | performs hidle => exact absurd hidle hp
  | writesMsg hidle => exact absurd hidle hp
  | signals ht => exact ht

/-- Settles O40: the second state is the first with other data, a host step does not depend on the data, and it only
signals (R66, R147, R189). -/
theorem pendingOperationHidesTheData : Obligations.PendingOperationHidesTheData := by
  intro s t s' t' item es hp hp' hlen haddr hbusy hcmd hfmt hreads he he' hst hst'
  have hh : hostStep item { s with events := es } = .next t := (step_of_cons he).symm.trans hst
  have hh' : hostStep item { s' with events := es } = .next t' := (step_of_cons he').symm.trans hst'
  have hdata : { s' with events := es } = State.withDataOf { s with events := es } s' := by
    simp only [State.withDataOf, hlen, haddr, hbusy, hcmd, hfmt, hreads]
  have ht' : t' = t.withDataOf s' := by
    rw [hdata, hostStep_withDataOf (s := { s with events := es }) hp hp' hh] at hh'
    cases hh'
    rfl
  have hkeep := (hostStep_accessEffect hh).onlySignals_of_busy hp
  exact ⟨ht' ▸ rfl, fun f => by rw [ht']; cases f <;> rfl, hkeep.h, hkeep.msg, hkeep.outb, hkeep.outlen, hkeep.pend⟩

/-! ### Big-endian packing -/

/-- The four bytes of a packed word, the first in bits 31:24 (R64). -/
theorem packBE_bytes (b0 b1 b2 b3 : Byte) :
    (packBE b0 b1 b2 b3).extractLsb' 24 8 = b0 ∧ (packBE b0 b1 b2 b3).extractLsb' 16 8 = b1 ∧
      (packBE b0 b1 b2 b3).extractLsb' 8 8 = b2 ∧ (packBE b0 b1 b2 b3).extractLsb' 0 8 = b3 := by
  have hskip {n : Nat} (x : BitVec n) (b : Byte) (k : Nat) : (x ++ b).extractLsb' (k + 8) 8 = x.extractLsb' k 8 :=
    BitVec.extractLsb'_append_eq_of_le (Nat.le_add_left 8 k)
  refine ⟨?_, ?_, ?_, BitVec.extractLsb'_append_eq_right⟩
  · exact (hskip _ _ 16).trans ((hskip _ _ 8).trans BitVec.extractLsb'_append_eq_left)
  · exact (hskip _ _ 8).trans ((hskip _ _ 0).trans BitVec.extractLsb'_append_eq_right)
  · exact (hskip _ _ 0).trans BitVec.extractLsb'_append_eq_right

/-- Packing the four bytes of a word gives it back (R64). -/
theorem packBE_byteBE (w : Word) : packBE (byteBE w 0) (byteBE w 1) (byteBE w 2) (byteBE w 3) = w := by
  calc packBE (byteBE w 0) (byteBE w 1) (byteBE w 2) (byteBE w 3)
      = w.extractLsb' 16 16 ++ w.extractLsb' 8 8 ++ w.extractLsb' 0 8 :=
        congrArg (· ++ w.extractLsb' 8 8 ++ w.extractLsb' 0 8) (BitVec.extractLsb'_append_extractLsb'_eq_extractLsb' rfl)
    _ = w.extractLsb' 8 24 ++ w.extractLsb' 0 8 :=
        congrArg (· ++ w.extractLsb' 0 8) (BitVec.extractLsb'_append_extractLsb'_eq_extractLsb' rfl)
    _ = w.extractLsb' 0 32 := BitVec.extractLsb'_append_extractLsb'_eq_extractLsb' rfl
    _ = w := BitVec.extractLsb'_eq_self

/-- Block `b` of a message is cut from its padded form, which reaches to the end of the block (R203). -/
theorem block_of_blocks_getElem? {m : List Byte} {b : Nat} {w : Vector Word 16} (h : (blocks m)[b]? = some w) :
    64 * (b + 1) ≤ (pad m).length ∧ w = block (pad m) b := by
  obtain ⟨hb, hw⟩ := List.getElem?_eq_some_iff.mp h
  simp only [blocks, List.length_map, List.length_range, List.getElem_map, List.getElem_range] at hb hw
  exact ⟨by omega, hw.symm⟩

theorem block_getElem (p : List Byte) (b : Nat) (i : Fin 16) : (block p b)[i.val] = blockWord p b i.val :=
  Vector.getElem_ofFn i.isLt

/-- A word of a block that lies within the padded message has the message's bytes, the first in bits 31:24 (R203). -/
theorem blockWord_bytes {p : List Byte} {b i : Nat} (h : 64 * b + 4 * i + 3 < p.length) :
    p[64 * b + 4 * i]? = some ((blockWord p b i).extractLsb' 24 8) ∧
      p[64 * b + 4 * i + 1]? = some ((blockWord p b i).extractLsb' 16 8) ∧
      p[64 * b + 4 * i + 2]? = some ((blockWord p b i).extractLsb' 8 8) ∧
      p[64 * b + 4 * i + 3]? = some ((blockWord p b i).extractLsb' 0 8) := by
  have hin {k : Nat} (hk : k < p.length) : p[k]? = some (p.getD k 0#8) := by
    rw [List.getD_eq_getElem _ _ hk, List.getElem?_eq_getElem hk]
  obtain ⟨h0, h1, h2, h3⟩ := packBE_bytes (p.getD (64 * b + 4 * i) 0#8) (p.getD (64 * b + 4 * i + 1) 0#8)
    (p.getD (64 * b + 4 * i + 2) 0#8) (p.getD (64 * b + 4 * i + 3) 0#8)
  rw [blockWord, h0, h1, h2, h3]
  exact ⟨hin (by omega), hin (by omega), hin (by omega), hin h⟩

/-- Settles O49: the bytes of a packed word, packing back the bytes of a word, and the words of a block within the padded
message (R64, R203). -/
theorem bigEndianPacking : Obligations.BigEndianPacking := by
  refine ⟨packBE_bytes, fun w => ⟨rfl, rfl, rfl, rfl⟩, packBE_byteBE, packBE_bytes, fun m b i w hw => ?_⟩
  obtain ⟨hlen, rfl⟩ := block_of_blocks_getElem? hw
  have hin : 64 * b + 4 * i.val + 3 < (pad m).length := by omega
  rw [block_getElem]
  exact ⟨hin, blockWord_bytes hin⟩

end Sys2Proof.Machine

/-! ## Proofs: encoding (spec/30_encoding.md) -/

namespace Sys2Proof.Machine

/-! ### Decoding an encoded instruction -/

/-- An access whose key falls, read or written, in a row that keeps the transfer and the offset. -/
theorem decode_of_transferRow {row : Nat} {size : BitVec 3} {off : BitVec 8} (mk : Xfer → BitVec 8 → Instr) (x : Xfer)
    (hmk : ∀ key data, rowInstr row key data = .ok (mk (xferOf key data) (keyOff key)))
    (hrow : ∀ b, keyRow (accessKey b size off) = row) : decode (encodeXfer x size off) = .ok (mk x off) := by
  cases x <;> simp [encodeXfer, decode, decodeAccessRow_eq, hrow, hmk, xferOf]

/-- An access whose key falls in a row of an indexed register, which keeps the register's index. -/
theorem decode_of_indexRow {row n : Nat} [NeZero n] {b : Bool} {size : BitVec 3} {base off : BitVec 8} {data : Word} {i : Fin n}
    (mk : Fin n → Instr) (hmk : ∀ key, rowInstr row key data = .ok (mk (Fin.ofNat n (regIndex base (keyOff key)))))
    (hrow : keyRow (accessKey b size off) = row) (hi : Fin.ofNat n (regIndex base off) = i) :
    decode (.access (accessKey b size off) data) = .ok (mk i) := by
  rw [decode, decodeAccessRow_eq, hrow, hmk, accessKey_off, hi]

/-! The index a register's offset stands for is the register's own (R87). -/

theorem regIndex_msgOff : ∀ i : Fin 16, Fin.ofNat 16 (regIndex 0x40#8 (msgOff i)) = i := by decide
theorem regIndex_hashOff : ∀ j : Fin 8, Fin.ofNat 8 (regIndex 0x80#8 (hashOff j)) = j := by decide
theorem regIndex_outOff : ∀ n : Fin 16, Fin.ofNat 16 (regIndex 0xC0#8 (outOff n)) = n := by decide

/-! The rows of the keys with a field that varies. -/

theorem keyRow_size1 : ∀ (off : BitVec 8) (b : Bool), keyRow (accessKey b 1#3 off) = 0 := by decide +kernel
theorem keyRow_size2 : ∀ (off : BitVec 8) (b : Bool), keyRow (accessKey b 2#3 off) = 1 := by decide +kernel
theorem keyRow_align1 : ∀ off : BitVec 8, off.getLsbD 0 = true → ∀ b, keyRow (accessKey b 4#3 off) = 2 := by decide +kernel
theorem keyRow_align2 : ∀ off : BitVec 8, off &&& 0x03#8 = 0x02#8 → ∀ b, keyRow (accessKey b 4#3 off) = 3 := by decide +kernel
theorem keyRow_unmapped0C : ∀ b : Bool, keyRow (accessKey b 4#3 0x0C#8) = 10 := by decide
theorem keyRow_unmapped10 : ∀ off : BitVec 8, off &&& 0xF3#8 = 0x10#8 → ∀ b, keyRow (accessKey b 4#3 off) = 11 := by decide +kernel
theorem keyRow_unmapped20 : ∀ off : BitVec 8, off &&& 0xE3#8 = 0x20#8 → ∀ b, keyRow (accessKey b 4#3 off) = 12 := by decide +kernel
theorem keyRow_wrMsg : ∀ i : Fin 16, keyRow (accessKey true 4#3 (msgOff i)) = 13 := by decide
theorem keyRow_rdMsg : ∀ i : Fin 16, keyRow (accessKey false 4#3 (msgOff i)) = 14 := by decide
theorem keyRow_rdHash : ∀ j : Fin 8, keyRow (accessKey false 4#3 (hashOff j)) = 15 := by decide
theorem keyRow_wrHash : ∀ j : Fin 8, keyRow (accessKey true 4#3 (hashOff j)) = 16 := by decide
theorem keyRow_unmappedA0 : ∀ off : BitVec 8, off &&& 0xE3#8 = 0xA0#8 → ∀ b, keyRow (accessKey b 4#3 off) = 17 := by decide +kernel
theorem keyRow_rdOut : ∀ n : Fin 16, keyRow (accessKey false 4#3 (outOff n)) = 18 := by decide
theorem keyRow_wrOut : ∀ n : Fin 16, keyRow (accessKey true 4#3 (outOff n)) = 19 := by decide

/-- The word of a well-formed ILLEGAL is none of the words of the rows before it. -/
theorem decodeCommandRow_of_illegal {op fmt : BitVec 4} {rsv : BitVec 24} (h : (Instr.illegal op fmt rsv).wellFormed = true) :
    decodeCommandRow (rsv ++ fmt ++ op) = .illegal op fmt rsv := by
  by_cases hrsv : rsv = 0#24
  · subst hrsv
    revert op fmt
    decide +kernel
  · rw [decodeCommandRow_of_rsv (by rwa [rsv_field]), op_field, fmt_field, rsv_field]

/-- Settles O56: a C row by its word, a B row by the row its key falls in (R80 to R88). -/
theorem decodeEncodeRoundTrip : Obligations.DecodeEncodeRoundTrip := by
  intro i hw
  cases i with
  | nop | init | compress | encodeHex | encodeB64 | clrErr => rfl
  | wrCmd | rdCmd | rdStatus | wrStatus | rdId | wrId => rfl
  | encodeBadFmt fmt =>
    revert fmt
    decide
  | illegal op fmt rsv => exact congrArg Except.ok (decodeCommandRow_of_illegal hw)
  | badSize1 x off => exact decode_of_transferRow .badSize1 x (fun _ _ => rfl) (keyRow_size1 off)
  | badSize2 x off => exact decode_of_transferRow .badSize2 x (fun _ _ => rfl) (keyRow_size2 off)
  | badAlign1 x off => exact decode_of_transferRow .badAlign1 x (fun _ _ => rfl) (keyRow_align1 off hw)
  | badAlign2 x off => exact decode_of_transferRow .badAlign2 x (fun _ _ => rfl) (keyRow_align2 off (of_decide_eq_true hw))
  | unmapped0C x => exact decode_of_transferRow (fun x _ => .unmapped0C x) x (fun _ _ => rfl) keyRow_unmapped0C
  | unmapped10 x off => exact decode_of_transferRow .unmapped10 x (fun _ _ => rfl) (keyRow_unmapped10 off (of_decide_eq_true hw))
  | unmapped20 x off => exact decode_of_transferRow .unmapped20 x (fun _ _ => rfl) (keyRow_unmapped20 off (of_decide_eq_true hw))
  | wrMsg i v => exact decode_of_indexRow (.wrMsg · v) (fun _ => rfl) (keyRow_wrMsg i) (regIndex_msgOff i)
  | rdMsg i => exact decode_of_indexRow .rdMsg (fun _ => rfl) (keyRow_rdMsg i) (regIndex_msgOff i)
  | rdHash j => exact decode_of_indexRow .rdHash (fun _ => rfl) (keyRow_rdHash j) (regIndex_hashOff j)
  | wrHash j v => exact decode_of_indexRow (.wrHash · v) (fun _ => rfl) (keyRow_wrHash j) (regIndex_hashOff j)
  | unmappedA0 x off => exact decode_of_transferRow .unmappedA0 x (fun _ _ => rfl) (keyRow_unmappedA0 off (of_decide_eq_true hw))
  | rdOut n => exact decode_of_indexRow .rdOut (fun _ => rfl) (keyRow_rdOut n) (regIndex_outOff n)
  | wrOut n v => exact decode_of_indexRow (.wrOut · v) (fun _ => rfl) (keyRow_wrOut n) (regIndex_outOff n)

/-! ### Encoding a decoded item -/

/-- By the general rules an access of a target that is BAD is malformed (R180, R181). -/
theorem busAccess_of_bad {size : BitVec 3} {off : BitVec 8} (h : decodeAccess off size = .bad) (x : Xfer) (s : State) :
    busAccess x size off s = badAccess x size off s := by
  cases x <;> simp only [busAccess, busWrite, busRead, h, badAccess]

/-- A gated read as R181 gives it. -/
theorem record_of_gatedRead (off : BitVec 8) (v : Word) (s : State) :
    (if s.pend ≠ .none then (0#32, s.raise .busy) else (v, s)).2.record off 4#3
      (if s.pend ≠ .none then (0#32, s.raise .busy) else (v, s)).1 = readWhenIdle off v s := by
  unfold readWhenIdle
  split <;> rfl

/-! The targets of the indexed registers (R87, R88). -/

theorem decodeAccess_msgOff : ∀ i : Fin 16, decodeAccess (msgOff i) 4#3 = .msg i := by decide
theorem decodeAccess_hashOff : ∀ j : Fin 8, decodeAccess (hashOff j) 4#3 = .hash j := by decide
theorem decodeAccess_outOff : ∀ n : Fin 16, decodeAccess (outOff n) 4#3 = .out n := by decide

/-- `i` is the table's instruction for the access: well formed, encoded as it, and with the effect of the general rules on it. -/
structure IsAccess (i : Instr) (x : Xfer) (size : BitVec 3) (off : BitVec 8) : Prop where
  wellFormed : i.wellFormed = true
  encode_eq : encode i = encodeXfer x size off
  exec_eq : ∀ s, exec i s = .next (busAccess x size off s)

/-- The instruction of a malformed or unmapped access. -/
theorem IsAccess.of_bad {i : Instr} {x : Xfer} {size : BitVec 3} {off : BitVec 8} (hbad : decodeAccess off size = .bad)
    (hw : i.wellFormed = true) (he : encode i = encodeXfer x size off) (hex : ∀ s, exec i s = .next (badAccess x size off s)) :
    IsAccess i x size off :=
  ⟨hw, he, fun s => by rw [hex, busAccess_of_bad hbad]⟩

/-- A read of a register has its row. -/
theorem exists_isAccess_read (r : Reg) : ∃ i, IsAccess i .read 4#3 r.off := by
  cases r with
  | cmd => exact ⟨.rdCmd, rfl, rfl, fun _ => rfl⟩
  | status => exact ⟨.rdStatus, rfl, rfl, fun _ => rfl⟩
  | id => exact ⟨.rdId, rfl, rfl, fun _ => rfl⟩
  | msg i =>
    refine ⟨.rdMsg i, rfl, rfl, fun s => ?_⟩
    simp only [Reg.off, busAccess, busRead, decodeAccess_msgOff, record_of_gatedRead]
    rfl
  | hash j =>
    refine ⟨.rdHash j, rfl, rfl, fun s => ?_⟩
    simp only [Reg.off, busAccess, busRead, decodeAccess_hashOff, record_of_gatedRead]
    rfl
  | out n =>
    refine ⟨.rdOut n, rfl, rfl, fun s => ?_⟩
    simp only [Reg.off, busAccess, busRead, decodeAccess_outOff, record_of_gatedRead]
    rfl

/-- A write of a register has its row. -/
theorem exists_isAccess_write (r : Reg) (v : Word) : ∃ i, IsAccess i (.write v) 4#3 r.off := by
  cases r with
  | cmd => exact ⟨.wrCmd v, rfl, rfl, fun s => congrArg Host.Outcome.next (whenIdle_twice _ s).symm⟩
  | status => exact ⟨.wrStatus v, rfl, rfl, fun _ => rfl⟩
  | id => exact ⟨.wrId v, rfl, rfl, fun _ => rfl⟩
  | msg i => exact ⟨.wrMsg i v, rfl, rfl, fun s => by simp only [Reg.off, busAccess, busWrite, decodeAccess_msgOff]; rfl⟩
  | hash j => exact ⟨.wrHash j v, rfl, rfl, fun s => by simp only [Reg.off, busAccess, busWrite, decodeAccess_hashOff]; rfl⟩
  | out n => exact ⟨.wrOut n v, rfl, rfl, fun s => by simp only [Reg.off, busAccess, busWrite, decodeAccess_outOff]; rfl⟩

/-- The offsets that are BAD at size 4, by their rows (R88, R191, R192). -/
theorem offset_of_bad : ∀ off : BitVec 8, decodeAccess off 4#3 = .bad →
    off.getLsbD 0 = true ∨ off &&& 0x03#8 = 0x02#8 ∨ off = 0x0C#8 ∨ off &&& 0xF3#8 = 0x10#8 ∨ off &&& 0xE3#8 = 0x20#8 ∨
      off &&& 0xE3#8 = 0xA0#8 := by decide +kernel

/-- The other offsets are those of the registers (R61). -/
theorem register_of_not_bad {off : BitVec 8} (h : decodeAccess off 4#3 ≠ .bad) : ∃ r : Reg, off = r.off := by
  have hoff : ∀ off : BitVec 8, decodeAccess off 4#3 ≠ .bad → off = 0x00#8 ∨ off = 0x04#8 ∨ off = 0x08#8 ∨
      (∃ i, off = msgOff i) ∨ (∃ j, off = hashOff j) ∨ ∃ n, off = outOff n := by decide +kernel
  obtain h | h | h | ⟨i, h⟩ | ⟨j, h⟩ | ⟨n, h⟩ := hoff off h
  · exact ⟨.cmd, h⟩
  · exact ⟨.status, h⟩
  · exact ⟨.id, h⟩
  · exact ⟨.msg i, h⟩
  · exact ⟨.hash j, h⟩
  · exact ⟨.out n, h⟩

/-- Every access of size 1, 2 or 4 has its row. -/
theorem exists_isAccess (x : Xfer) {size : BitVec 3} (off : BitVec 8) (hsize : size = 1#3 ∨ size = 2#3 ∨ size = 4#3) :
    ∃ i, IsAccess i x size off := by
  obtain rfl | rfl | rfl := hsize
  · exact ⟨.badSize1 x off, .of_bad (if_pos (.inl (by decide))) rfl rfl fun _ => rfl⟩
  · exact ⟨.badSize2 x off, .of_bad (if_pos (.inl (by decide))) rfl rfl fun _ => rfl⟩
  · by_cases hbad : decodeAccess off 4#3 = .bad
    · obtain h | h | rfl | h | h | h := offset_of_bad off hbad
      · exact ⟨.badAlign1 x off, .of_bad hbad h rfl fun _ => rfl⟩
      · exact ⟨.badAlign2 x off, .of_bad hbad (decide_eq_true h) rfl fun _ => rfl⟩
      · exact ⟨.unmapped0C x, .of_bad hbad rfl rfl fun _ => rfl⟩
      · exact ⟨.unmapped10 x off, .of_bad hbad (decide_eq_true h) rfl fun _ => rfl⟩
      · exact ⟨.unmapped20 x off, .of_bad hbad (decide_eq_true h) rfl fun _ => rfl⟩
      · exact ⟨.unmappedA0 x off, .of_bad hbad (decide_eq_true h) rfl fun _ => rfl⟩
    · obtain ⟨r, rfl⟩ := register_of_not_bad hbad
      cases x with
      | read => exact exists_isAccess_read r
      | write v => exact exists_isAccess_write r v

/-- The raw access of an access's own fields, a read's data word apart (R62, log 10). -/
theorem encodeXfer_of_key (key : BitVec 12) (data : Word) :
    encodeXfer (xferOf key data) (keySize key) (keyOff key) = .access key (if keyIsWrite key then data else 0#32) := by
  have hkey := key_fields key
  unfold xferOf
  cases hw : keyIsWrite key <;> rw [hw] at hkey <;> exact congrArg (HostItem.access · _) hkey

/-- The rows whose instruction keeps the data word itself, not a transfer: the writes of the registers. -/
def rowKeepsWord (row : Nat) : Bool :=
  match row with
  | 4 | 7 | 9 | 13 | 16 | 19 => true
  | _ => false

/-- The key of a read is in none of them. -/
theorem rowKeepsWord_of_read {size : BitVec 3} (off : BitVec 8) (hsize : size = 1#3 ∨ size = 2#3 ∨ size = 4#3) :
    rowKeepsWord (keyRow (accessKey false size off)) = false := by
  obtain rfl | rfl | rfl := hsize
  · rw [keyRow_size1]
    rfl
  · rw [keyRow_size2]
    rfl
  · revert off
    decide +kernel

/-- The other rows do not see the data word beside the key of a read. -/
theorem rowInstr_of_read {row : Nat} {key : BitVec 12} (hkey : keyIsWrite key = false) (hrow : rowKeepsWord row = false)
    (data data' : Word) : rowInstr row key data = rowInstr row key data' := by
  have hx : xferOf key data = xferOf key data' := by simp [xferOf, hkey]
  unfold rowInstr
  rw [hx]
  split <;> simp [rowKeepsWord] at hrow ⊢

/-- A read's data word plays no part in decoding (log 10). -/
theorem decode_encodeXfer_of_key {key : BitVec 12} (data : Word)
    (hsize : keySize key = 1#3 ∨ keySize key = 2#3 ∨ keySize key = 4#3) :
    decode (encodeXfer (xferOf key data) (keySize key) (keyOff key)) = decode (.access key data) := by
  rw [encodeXfer_of_key]
  cases hkey : keyIsWrite key with
  | true => rfl
  | false =>
    have hfields : accessKey false (keySize key) (keyOff key) = key := hkey ▸ key_fields key
    have hrow : rowKeepsWord (keyRow key) = false := hfields ▸ rowKeepsWord_of_read (keyOff key) hsize
    simp only [decode, decodeAccessRow_eq]
    exact rowInstr_of_read hkey hrow _ _

/-- An access of size 1, 2 or 4 decodes to the instruction of its row. -/
theorem exists_decode_isAccess {key : BitVec 12} (data : Word) (hsize : keySize key = 1#3 ∨ keySize key = 2#3 ∨ keySize key = 4#3) :
    ∃ i, decode (.access key data) = .ok i ∧ IsAccess i (xferOf key data) (keySize key) (keyOff key) := by
  obtain ⟨i, hi⟩ := exists_isAccess (xferOf key data) (keyOff key) hsize
  refine ⟨i, ?_, hi⟩
  rw [← decode_encodeXfer_of_key data hsize, ← hi.encode_eq]
  exact decodeEncodeRoundTrip i hi.wellFormed

/-- An access of another size has no row. -/
theorem decode_of_size {key : BitVec 12} (data : Word) (h1 : keySize key ≠ 1#3) (h2 : keySize key ≠ 2#3) (h4 : keySize key ≠ 4#3) :
    decode (.access key data) = .error (.sizeNotInTable (keySize key)) := by
  obtain ⟨-, hrow⟩ := keyRow_range key
  have h20 : keyRow key = 20 := not_not.mp (mt hrow.mp (not_or.mpr ⟨h1, not_or.mpr ⟨h2, h4⟩⟩))
  rw [decode, decodeAccessRow_eq, h20]
  rfl

/-- A command word's row is well formed and encodes to the word (R81, R84). -/
theorem encode_decodeCommandRow (w : Word) : (decodeCommandRow w).wellFormed = true ∧ encode (decodeCommandRow w) = .command w := by
  by_cases hrsv : w.extractLsb' 8 24 = 0#24
  · refine forall_lt_256 (P := fun w => (decodeCommandRow w).wellFormed = true ∧ encode (decodeCommandRow w) = .command w) ?_
      (lt_256_of_rsv hrsv)
    decide +kernel
  · rw [decodeCommandRow_of_rsv hrsv]
    exact ⟨by simp [Instr.wellFormed, hrsv], congrArg HostItem.command (word_fields w).symm⟩

/-- Settles O57: a command word falls in a C row, an access of size 1, 2 or 4 has its row, and the other sizes have none
(R62, R84, R88, log 6). -/
theorem encodeDecodeRoundTrip : Obligations.EncodeDecodeRoundTrip := by
  refine ⟨fun w => ⟨decodeCommandRow w, rfl, encode_decodeCommandRow w⟩, fun key data hsize => ?_, fun _ => decode_of_size⟩
  obtain ⟨i, hd, hi⟩ := exists_decode_isAccess data hsize
  exact ⟨i, hd, hi.wellFormed, hi.encode_eq.trans (encodeXfer_of_key key data)⟩

/-! ### A host access by the general rules -/

/-- A host step on an access is what the general rules R180 and R181 make of it. -/
theorem hostStep_access (key : BitVec 12) (data : Word) (s : State) :
    hostStep (.access key data) s = .next (busAccess (xferOf key data) (keySize key) (keyOff key) s) := by
  by_cases hsize : keySize key = 1#3 ∨ keySize key = 2#3 ∨ keySize key = 4#3
  · obtain ⟨i, hd, hi⟩ := exists_decode_isAccess data hsize
    rw [hostStep_of_decode hd, hi.exec_eq]
  · obtain ⟨h1, h2, h4⟩ : keySize key ≠ 1#3 ∧ keySize key ≠ 2#3 ∧ keySize key ≠ 4#3 := by
      simpa only [not_or] using hsize
    simp only [hostStep, decode_of_size data h1 h2 h4]

/-- The same of an access given by its transfer, size and offset. -/
theorem hostStep_encodeXfer (x : Xfer) (size : BitVec 3) (off : BitVec 8) (s : State) :
    hostStep (encodeXfer x size off) s = .next (busAccess x size off s) := by
  cases x <;> simp [encodeXfer, hostStep_access, xferOf]

/-! ### The effect of an access without a row, and of a command word -/

/-- Settles O2: such an access is performed by the general rules, by which it is malformed (R88, R192, log 6). -/
theorem otherSizesRaiseErrAddr : Obligations.OtherSizesRaiseErrAddr := by
  intro s key data es he _ _ h4
  rw [step_of_cons he, eventStep, hostStep_access, busAccess_of_size h4]
  unfold xferOf
  cases keyIsWrite key <;> simp [badAccess, raise_addr, State.record]

/-- A word is ILLEGAL by the rule's order exactly in the three cases of R85. -/
theorem decodeCmd_illegal_iff (w : Word) : decodeCmd w = .illegal ↔ illegalWord w := by
  by_cases hrsv : w.extractLsb' 8 24 = 0#24
  · refine forall_lt_256 (P := fun w => decodeCmd w = .illegal ↔ illegalWord w) ?_ (lt_256_of_rsv hrsv)
    unfold illegalWord
    decide +kernel
  · exact iff_of_true (decodeCmd_of_rsv hrsv) (.inl hrsv)

/-- While idle an instruction that carries a command performs it. -/
theorem exec_of_commandOf_idle {i : Instr} {c : Command} {s : State} (hc : commandOf i = some c) (hp : s.pend = .none) :
    exec i s = .next (perform c s) := by
  rw [exec_of_commandOf hc, whenIdle_idle hp]

/-- Settles O15: the cases of R85 are those of `Decode`, and an ILLEGAL command raises ERR_CMD (R84, R85). -/
theorem illegalWordsRaiseErrCmdOnly : Obligations.IllegalWordsRaiseErrCmdOnly := by
  refine ⟨decodeCmd_illegal_iff, fun s op fmt rsv hp => ?_, fun s w hp hw => ?_, fun fmt _ => ?_⟩
  · rw [exec_of_commandOf_idle rfl hp, perform, raise_cmd]
  · rw [exec_of_commandOf_idle (i := .wrCmd w) (congrArg some ((decodeCmd_illegal_iff w).mpr hw)) hp, perform, raise_cmd]
  · simp [illegalWord, rsv_field, op_field]

/-- The command of each word, by the word's value (R84, R86). -/
def commandOfValue (w : Word) : Command :=
  if w = 0#32 then .nop
  else if w = 1#32 then .init
  else if w = 2#32 then .compress
  else if w = 3#32 then .encode 0#4
  else if w = 0x13#32 then .encode 1#4
  else if w = 4#32 then .clrErr
  else if w.toNat < 256 ∧ w.toNat % 16 = 3 then .encode (w.extractLsb' 4 4)
  else .illegal

theorem decodeCmd_eq_commandOfValue (w : Word) : decodeCmd w = commandOfValue w := by
  by_cases hw : w.toNat < 256
  · refine forall_lt_256 (P := fun w => decodeCmd w = commandOfValue w) ?_ hw
    decide +kernel
  · have hne : ∀ x : Word, x.toNat < 256 → w ≠ x := fun x hx h => hw (h ▸ hx)
    rw [not_not.mp (mt lt_256_of_decodeCmd hw), commandOfValue, if_neg (hne _ (by decide)),
      if_neg (hne _ (by decide)), if_neg (hne _ (by decide)), if_neg (hne _ (by decide)), if_neg (hne _ (by decide)),
      if_neg (hne _ (by decide)), if_neg fun h => hw h.1]

/-- The ENCODE words with another format than the two of R165. -/
theorem fmt_of_badFmtValue {w : Word} (hlt : w.toNat < 256) (hop : w.toNat % 16 = 3) (h3 : w ≠ 3#32) (h13 : w ≠ 0x13#32) :
    w.extractLsb' 4 4 ≠ 0#4 ∧ w.extractLsb' 4 4 ≠ 1#4 := by
  refine forall_lt_256 (P := fun w => w.toNat % 16 = 3 → w ≠ 3#32 → w ≠ 0x13#32 →
    w.extractLsb' 4 4 ≠ 0#4 ∧ w.extractLsb' 4 4 ≠ 1#4) ?_ hlt hop h3 h13
  decide +kernel

/-- Settles O17: the word is decoded and its command performed; the format of the last ENCODE words is neither 0 nor 1, whose words
come before (R84, R86, R165, log 7). -/
theorem wrCmdPerformsTheWordItCarries : Obligations.WrCmdPerformsTheWordItCarries := by
  intro s w hp
  rw [exec_of_commandOf_idle (i := .wrCmd w) rfl hp, decodeCmd_eq_commandOfValue, commandOfValue]
  split_ifs with _ _ _ h3 h13 _ hfmt
  · rfl
  · rfl
  · rfl
  · rfl
  · rfl
  · rfl
  · obtain ⟨hf0, hf1⟩ := fmt_of_badFmtValue hfmt.1 hfmt.2 h3 h13
    rw [perform, encodeIssue, if_neg hf0, if_neg hf1, raise_fmt]
    rfl
  · rw [perform, raise_cmd]

/-- Settles O18: both forms carry the command of the word, and are performed alike (R80, R182, log 5). -/
theorem commandFormIsAWriteOfCmd : Obligations.CommandFormIsAWriteOfCmd := by
  intro s w es
  rw [step_of_cons rfl, step_of_cons rfl, eventStep, eventStep, hostStep_of_decode (i := decodeCommandRow w) rfl,
    hostStep_of_decode (i := .wrCmd w) rfl, exec_of_commandOf (commandOf_decodeCommandRow w), exec_of_commandOf rfl]

/-! ### The words of the table and the host's program -/

/-- Settles O58: each word is decoded by its row (R81 to R88, log 9). -/
theorem sampleWordsDecode : Obligations.SampleWordsDecode := by
  unfold Obligations.SampleWordsDecode
  decide

/-- Settles O59: a host statement that is an access is performed by the general rules, as the step performs it (R89, R211). -/
theorem hostStatementIsAMachineStep : Obligations.HostStatementIsAMachineStep := by
  intro th s st item hst hitem
  rw [step_of_cons rfl, eventStep, HostThread.step, hst]
  cases st <;> cases hitem <;> exact hostStep_encodeXfer _ _ _ s

/-! ### The digest procedure as a program -/

/-- The accesses a program makes, in order. -/
def programAccesses (ps : List Pseudo) : List Event := ((expandProgram ps).filterMap Stmt.item).map Event.host

/-- What the bus sees of a sequence of events, in order, commands in their B form. -/
def busEvents (es : List Event) : List Event := (outsideEvents es).map busForm

theorem programAccesses_append (ps qs : List Pseudo) : programAccesses (ps ++ qs) = programAccesses ps ++ programAccesses qs := by
  simp only [programAccesses, expandProgram, List.flatMap_append, List.filterMap_append, List.map_append]

theorem busEvents_append (es fs : List Event) : busEvents (es ++ fs) = busEvents es ++ busEvents fs := by
  simp only [busEvents, outsideEvents, List.filter_append, List.map_append]

/-- A pseudo-instruction whose statements are one access for each entry of a list makes those accesses. -/
theorem programAccesses_of_expand_map {α : Type} {p : Pseudo} {l : List α} (st : α → Stmt) {item : α → HostItem}
    (hp : p.expand = l.map st) (hitem : ∀ a, (st a).item = some (item a)) : programAccesses [p] = l.map fun a => .host (item a) := by
  simp [programAccesses, expandProgram, hp, List.filterMap_map, Function.comp_def, hitem]

/-- Accesses in the B form are on the bus as they are. -/
theorem busEvents_map_host {α : Type} (l : List α) (item : α → HostItem) (hitem : ∀ a, busForm (.host (item a)) = .host (item a)) :
    busEvents (l.map fun a => .host (item a)) = l.map fun a => .host (item a) := by
  simp [busEvents, outsideEvents, List.filter_map, Function.comp_def, hitem]

theorem programAccesses_ldblk (b : Vector Word 16) : programAccesses [.ldblk b] = busEvents (loadBlock b) := by
  rw [loadBlock, busEvents_map_host _ _ fun _ => rfl]
  exact programAccesses_of_expand_map (fun i => .wr (.msg i) b[i.val]) rfl fun _ => rfl

theorem programAccesses_rdhash : programAccesses [.rdhash] = busEvents hashReads := by
  rw [hashReads, busEvents_map_host _ _ fun _ => rfl]
  exact programAccesses_of_expand_map (fun j => .rd (.hash j) ("h" ++ toString j.val)) rfl fun _ => rfl

theorem programAccesses_rdout (k : Nat) : programAccesses [.rdout k] = busEvents (outReads k) := by
  rw [outReads, busEvents_map_host _ _ fun _ => rfl]
  exact programAccesses_of_expand_map (fun n => .rd (.out n) ("o" ++ toString n.val)) rfl fun _ => rfl

theorem programAccesses_wait (l : String) : programAccesses [.wait l] = busEvents (waitEvents 0) := rfl

theorem programAccesses_compress : programAccesses [.compress] = busEvents [.host (encode .compress)] := rfl

theorem programAccesses_startProgram (start : DigestStart) : programAccesses (startProgram start) = busEvents (startEvents start) := by
  cases start <;> rfl

theorem programAccesses_readoutProgram (readout : Readout) :
    programAccesses (readoutProgram readout) = busEvents (readoutEvents 0 readout) := by
  have hencode (fmt : BitVec 4) (k : Nat) : programAccesses [.encode fmt, .wait "E", .rdout k] =
      programAccesses [.encode fmt] ++ programAccesses [.wait "E"] ++ programAccesses [.rdout k] := by
    rw [← programAccesses_append, ← programAccesses_append]
    rfl
  cases readout with
  | hash => exact programAccesses_rdhash
  | hex | base64 =>
    rw [readoutProgram, readoutEvents, hencode, busEvents_append, busEvents_append, programAccesses_wait, programAccesses_rdout]
    rfl

/-- The program waits before each block and once after the last; the procedure waits once before the first and after each. -/
theorem programAccesses_blocksProgram (ws : List (Vector Word 16)) (b : Nat) (l : String) :
    programAccesses (blocksProgram b ws ++ [.wait l]) =
      busEvents ([.host (encode .rdStatus)] ++ blocksEvents (fun _ => 0) ws) := by
  induction ws generalizing b with
  | nil => rfl
  | cons w ws ih =>
    calc programAccesses (blocksProgram b (w :: ws) ++ [.wait l])
        = programAccesses [.wait ("W" ++ toString b)] ++ programAccesses [.ldblk w] ++ programAccesses [.compress] ++
            programAccesses (blocksProgram (b + 1) ws ++ [.wait l]) := by
          simp only [← programAccesses_append]
          rfl
      _ = busEvents (waitEvents 0) ++ busEvents (loadBlock w) ++ busEvents [.host (encode .compress)] ++
            busEvents ([.host (encode .rdStatus)] ++ blocksEvents (fun _ => 0) ws) := by
          rw [ih, programAccesses_wait, programAccesses_ldblk, programAccesses_compress]
      _ = busEvents ([.host (encode .rdStatus)] ++ blocksEvents (fun _ => 0) (w :: ws)) := by
          simp only [blocksEvents, blockEvents, busEvents_append, List.append_assoc]
          rfl

/-- Settles O60: the start, the blocks with the waits around them, and the readout make the same accesses (R89, R90, R202, R204). -/
theorem digestProgramMakesTheAccessesOfTheProcedure : Obligations.DigestProgramMakesTheAccessesOfTheProcedure := by
  intro start readout m
  unfold digestProgram digestProcedure
  by_cases hlarge : inputTooLarge m
  · rw [if_pos hlarge, if_pos hlarge]
    exact ⟨fun sig => by simp, fun ps es hps => by cases hps⟩
  · rw [if_neg hlarge, if_neg hlarge]
    refine ⟨fun sig => by simp, fun ps es hps hes => ?_⟩
    cases hps
    cases hes
    generalize "W" ++ toString (blocks m).length = l
    calc programAccesses (startProgram start ++ blocksProgram 0 (blocks m) ++ [.wait l] ++ readoutProgram readout)
        = programAccesses (startProgram start) ++ programAccesses (blocksProgram 0 (blocks m) ++ [.wait l]) ++
            programAccesses (readoutProgram readout) := by
          simp only [programAccesses_append, List.append_assoc]
      _ = busEvents (startEvents start ++ [.host (encode .rdStatus)] ++ blocksEvents (fun _ => 0) (blocks m) ++
            readoutEvents 0 readout) := by
          rw [programAccesses_startProgram, programAccesses_blocksProgram, programAccesses_readoutProgram]
          simp only [busEvents_append, List.append_assoc]

end Sys2Proof.Machine

/-! ## Proofs: primitives (spec/40_primitives.md) -/

namespace Sys2Proof.Machine

/-- The right shift brings the bits that stay inside the word, the left shift those that come round (R101). -/
theorem rotr_getLsbD (x : Word) {n k : Nat} (hn : n ≤ 32) (hk : k < 32) : (rotr x n).getLsbD k = x.getLsbD ((k + n) % 32) := by
  rw [rotr, BitVec.getLsbD_or, BitVec.getLsbD_ushiftRight, BitVec.getLsbD_shiftLeft, Nat.add_comm n k]
  by_cases hin : k + n < 32
  · have hlow : k < 32 - n := by omega
    simp [hlow, Nat.mod_eq_of_lt hin]
  · have hhigh : ¬ k < 32 - n := by omega
    have hround : (k + n) % 32 = k - (32 - n) := by omega
    rw [BitVec.getLsbD_of_ge x (k + n) (Nat.not_lt.mp hin), hround]
    simp [hk, hhigh]

/-- A word whose bits are all the same is fixed by every rotation. -/
theorem rotr_of_constant {x : Word} {b : Bool} {n : Nat} (hn : n ≤ 32) (hx : ∀ k < 32, x.getLsbD k = b) : rotr x n = x := by
  refine BitVec.eq_of_getLsbD_eq fun k hk => ?_
  rw [rotr_getLsbD x hn hk, hx _ (Nat.mod_lt _ (by decide)), hx k hk]

/-- Settles O42: bit by bit, and the two fixed points as the words with one bit value throughout (R101). -/
theorem rotrMovesEveryBit : Obligations.RotrMovesEveryBit := by
  intro x n _ hn31
  have hn : n ≤ 32 := Nat.le_succ_of_le hn31
  exact ⟨fun k hk => rotr_getLsbD x hn hk, rotr_of_constant hn fun k _ => BitVec.getLsbD_zero,
    rotr_of_constant (b := true) hn (by decide)⟩

/-- Settles O43: an exclusive or is taken bit by bit, and each rotation and shift says where its bit comes from (R102 to R107). -/
theorem sigmaFunctionsBitByBit : Obligations.SigmaFunctionsBitByBit := by
  intro x k hk
  have hrot (n : Nat) (hn : n ≤ 32) : (rotr x n).getLsbD k = x.getLsbD ((k + n) % 32) := rotr_getLsbD x hn hk
  have hshift (n : Nat) : (x >>> n).getLsbD k = x.getLsbD (k + n) := by rw [BitVec.getLsbD_ushiftRight, Nat.add_comm]
  refine ⟨?_, ?_, ?_, ?_⟩
  · rw [smallSigma0, BitVec.getLsbD_xor, BitVec.getLsbD_xor, hrot 7 (by decide), hrot 18 (by decide), hshift]
  · rw [smallSigma1, BitVec.getLsbD_xor, BitVec.getLsbD_xor, hrot 17 (by decide), hrot 19 (by decide), hshift]
  · rw [bigSigma0, BitVec.getLsbD_xor, BitVec.getLsbD_xor, hrot 2 (by decide), hrot 13 (by decide), hrot 22 (by decide)]
  · rw [bigSigma1, BitVec.getLsbD_xor, BitVec.getLsbD_xor, hrot 6 (by decide), hrot 11 (by decide), hrot 25 (by decide)]

/-- Settles O44: each bit of Ch and of Maj is a function of the three operand bits there, compared on their eight values (R108, R109). -/
theorem choosesAndVotesBitByBit : Obligations.ChoosesAndVotesBitByBit := by
  intro x y z k hk
  constructor
  · rw [ch, BitVec.getLsbD_xor, BitVec.getLsbD_and, BitVec.getLsbD_and, BitVec.getLsbD_not, decide_eq_true hk]
    cases x.getLsbD k <;> simp
  · rw [maj, BitVec.getLsbD_xor, BitVec.getLsbD_xor, BitVec.getLsbD_and, BitVec.getLsbD_and, BitVec.getLsbD_and]
    generalize x.getLsbD k = a, y.getLsbD k = b, z.getLsbD k = c
    revert a b c
    decide

end Sys2Proof.Machine

/-! ## Proofs: control (spec/41_control.md) -/

namespace Sys2Proof.Machine

/-! ### The ENGINE's turn -/

/-- A step is the ENGINE's when its turn is next, and when no event is left (R69, log 3). -/
theorem step_of_engineTurn {s : State} {es : List Event} (he : s.events = .engine :: es ∨ (s.events = [] ∧ es = [])) :
    step s = .next (engineStep { s with events := es }) := by
  obtain he | ⟨he, rfl⟩ := he
  · exact step_of_cons he
  · calc step s = .next (engineStep s) := step_of_nil he
      _ = .next (engineStep { s with events := [] }) := by rw [← he]

/-- Settles O3: the step is the ENGINE's, which completes what PEND says (R126, R232, log 3). -/
theorem engineTurnCompletesThePendingOperation : Obligations.EngineTurnCompletesThePendingOperation := by
  intro s es he
  rw [step_of_engineTurn he]
  obtain ⟨hp, h⟩ | ⟨hp, h⟩ | ⟨hp, h⟩ | ⟨hp, h⟩ := engineStep_cases { s with events := es } <;>
    rw [h, show s.pend = _ from hp] <;> rfl

/-! ### The BUSY gate on commands -/

/-- While an operation is pending an instruction that carries a command is dropped. -/
theorem exec_of_commandOf_busy {i : Instr} {c : Command} {s : State} (hc : commandOf i = some c) (hp : s.pend ≠ .none) :
    exec i s = .next { s with errBusy := true } := by
  rw [exec_of_commandOf hc, whenIdle_busy hp, raise_busy]

/-- Settles O16: a write of CMD and every C row carry a command, which the gate drops whatever it is (R120, R125). -/
theorem commandsWhileBusyAreDropped : Obligations.CommandsWhileBusyAreDropped := by
  intro s hp
  refine ⟨fun w => exec_of_commandOf_busy (i := .wrCmd w) rfl hp, fun i w hd => ?_⟩
  obtain rfl : decodeCommandRow w = i := Except.ok.inj hd
  exact exec_of_commandOf_busy (commandOf_decodeCommandRow w) hp

/-! ### The immediate commands -/

/-- A word of another OP than ENCODE's is ILLEGAL unless its FMT and RSV are zero (R81, R85). -/
theorem illegalWord_of_op {w : Word} {op : BitVec 4} (hop : w.extractLsb' 0 4 = op) (h3 : op ≠ 3#4)
    (hw : w ≠ 0#24 ++ 0#4 ++ op) : illegalWord w := by
  by_cases hrsv : w.extractLsb' 8 24 = 0#24
  · refine .inr (.inr ⟨hop ▸ h3, fun hfmt => hw ?_⟩)
    rw [word_fields w, hrsv, hfmt, hop]
  · exact .inl hrsv

/-- While idle such a word raises ERR_CMD only (R85, R120). -/
theorem exec_wrCmd_of_op {s : State} {w : Word} {op : BitVec 4} (hp : s.pend = .none) (hop : w.extractLsb' 0 4 = op)
    (h3 : op ≠ 3#4) (hw : w ≠ 0#24 ++ 0#4 ++ op) : exec (.wrCmd w) s = .next { s with errCmd := true } := by
  obtain ⟨-, -, hillegal, -⟩ := illegalWordsRaiseErrCmdOnly
  exact hillegal s w hp (illegalWord_of_op hop h3 hw)

/-- Settles O8: NOP carries the command that changes nothing, and the other words with OP 0 are ILLEGAL (R121). -/
theorem nopDoesNothing : Obligations.NopDoesNothing :=
  ⟨rfl, fun _ => exec_of_commandOf_idle (c := .nop) rfl, fun _ => exec_of_commandOf_busy (c := .nop) rfl,
    fun _ _ hp hop => exec_wrCmd_of_op hp hop (by decide)⟩

/-- INIT sets H and the output to constants, so twice is once (R122). -/
theorem initState_initState (s : State) : initState (initState s) = initState s := rfl

/-- Settles O9: INIT leaves nothing pending, so a second one is performed too, and the state of R36 is one INIT leaves
as it is (R122). -/
theorem initLoadsIvAndClearsTheOutput : Obligations.InitLoadsIvAndClearsTheOutput := by
  have hinit {s : State} (hp : s.pend = .none) : exec .init s = .next (initState s) :=
    exec_of_commandOf_idle (c := .init) rfl hp
  refine ⟨rfl, fun s => hinit, fun s => exec_of_commandOf_busy (c := .init) rfl, hinit rfl, fun s t hp ht => ?_⟩
  obtain rfl : initState s = t := Host.Outcome.next.inj ((hinit hp).symm.trans ht)
  have hidle : (initState s).pend = .none := hp
  rw [hinit hidle, initState_initState]

/-- With no flag set there is none to clear (R123). -/
theorem State.clearErrors_of_clean {s : State} (hs : s.clean) : s.clearErrors = s := by
  cases s
  simp only [State.clean] at hs
  obtain ⟨rfl, rfl, rfl, rfl⟩ := hs
  rfl

/-- Settles O10: CLRERR clears the flags, and the other words with OP 4 are ILLEGAL (R123). -/
theorem clrErrClearsTheFourFlags : Obligations.ClrErrClearsTheFourFlags := by
  have hclear {s : State} (hp : s.pend = .none) : exec .clrErr s = .next s.clearErrors :=
    exec_of_commandOf_idle (c := .clrErr) rfl hp
  refine ⟨rfl, fun s => hclear, fun s => exec_of_commandOf_busy (c := .clrErr) rfl, fun s hp hs => ?_,
    fun s w hp hop => exec_wrCmd_of_op hp hop (by decide)⟩
  rw [hclear hp, State.clearErrors_of_clean hs]

end Sys2Proof.Machine

/-! ## Proofs: compress (spec/42_compress.md) -/

namespace Sys2Proof.Machine

/-! ### The hash state -/

/-- IV is the chain of no blocks. -/
theorem State.hashIsChain_of_iv {t : State} (h : t.h = iv) : t.hashIsChain := ⟨[], h⟩

/-- One more compression makes the chain one block longer. -/
theorem State.hashIsChain_of_compress {s t : State} {b : Vector Word 16} (hs : s.hashIsChain) (h : t.h = compress s.h b) :
    t.hashIsChain := by
  obtain ⟨bs, hbs⟩ := hs
  exact ⟨bs ++ [b], by rw [h, hbs, List.foldl_concat]⟩

/-- Settles O38: a step that changes H loads IV or compresses (R146, R184, 92 D15). -/
theorem stepKeepsTheHashAChainFromIv : Obligations.StepKeepsTheHashAChainFromIv := by
  intro s t hs hst
  by_cases hkept : t.h = s.h
  · obtain ⟨bs, hbs⟩ := hs
    exact ⟨bs, hkept.trans hbs⟩
  · obtain ⟨hiv, -⟩ | ⟨hiv, -⟩ | ⟨hcompress, -⟩ := hashIsWrittenByThreeEventsOnly s t hst hkept
    · exact State.hashIsChain_of_iv hiv
    · exact State.hashIsChain_of_iv hiv
    · exact State.hashIsChain_of_compress hs hcompress

/-! ### The schedule -/

theorem scheduleExtend_length (n : Nat) (w : List Word) : (scheduleExtend n w).length = w.length + n := by
  induction n generalizing w with
  | zero => rfl
  | succ n ih =>
    rw [scheduleExtend, ih, List.length_append, List.length_singleton]
    omega

/-- The words so far stay in front. -/
theorem scheduleExtend_eq_append (n : Nat) (w : List Word) : ∃ rest, scheduleExtend n w = w ++ rest := by
  induction n generalizing w with
  | zero => exact ⟨[], (List.append_nil w).symm⟩
  | succ n ih =>
    obtain ⟨rest, hrest⟩ := ih (w ++ [scheduleNext w])
    exact ⟨scheduleNext w :: rest, hrest.trans (List.append_cons w _ rest).symm⟩

/-- From word 16 on each word is the next one after those before it (R141). -/
def followsRecurrence (w : List Word) : Prop := ∀ t : Nat, 16 ≤ t → t < w.length → w.getD t 0#32 = scheduleNext (w.take t)

/-- With the next word at its end a schedule still follows the recurrence. -/
theorem followsRecurrence_next {w : List Word} (hw : followsRecurrence w) : followsRecurrence (w ++ [scheduleNext w]) := by
  intro t h16 ht
  rw [List.length_append, List.length_singleton] at ht
  obtain hlt | rfl := Nat.lt_succ_iff_lt_or_eq.mp ht
  · rw [List.getD_append _ _ _ _ hlt, List.take_append_of_le_length hlt.le]
    exact hw t h16 hlt
  · rw [List.getD_append_right _ _ _ _ le_rfl, Nat.sub_self, List.take_left]
    rfl

theorem followsRecurrence_scheduleExtend (n : Nat) {w : List Word} (hw : followsRecurrence w) :
    followsRecurrence (scheduleExtend n w) := by
  induction n generalizing w with
  | zero => exact hw
  | succ n ih => exact ih (followsRecurrence_next hw)

theorem schedule_length (msg : Vector Word 16) : (schedule msg).length = 64 := by
  rw [schedule, scheduleExtend_length, Vector.length_toList]

/-- The first 16 words are the block (R140). -/
theorem schedule_getD_block (msg : Vector Word 16) (t : Fin 16) : (schedule msg).getD t.val 0#32 = msg[t.val] := by
  have ht : t.val < msg.toList.length := by simp
  obtain ⟨rest, hrest⟩ := scheduleExtend_eq_append 48 msg.toList
  rw [schedule, hrest, List.getD_append _ _ _ _ ht, List.getD_eq_getElem _ _ ht, Vector.getElem_toList]

theorem followsRecurrence_schedule (msg : Vector Word 16) : followsRecurrence (schedule msg) := by
  refine followsRecurrence_scheduleExtend 48 fun t h16 ht => ?_
  rw [Vector.length_toList] at ht
  omega

/-- The next word after the first `t` looks back from `t` (R141). -/
theorem scheduleNext_take {w : List Word} {t : Nat} (h16 : 16 ≤ t) (ht : t < w.length) :
    scheduleNext (w.take t) = w.getD (t - 16) 0#32 + smallSigma0 (w.getD (t - 15) 0#32) + w.getD (t - 7) 0#32
      + smallSigma1 (w.getD (t - 2) 0#32) := by
  have hback {d : Nat} (hd : 0 < d) : (w.take t).getD (t - d) 0#32 = w.getD (t - d) 0#32 := by
    rw [List.getD_eq_getElem?_getD, List.getElem?_take_of_lt (by omega), List.getD_eq_getElem?_getD]
  rw [scheduleNext, List.length_take_of_le ht.le, hback (by decide), hback (by decide), hback (by decide), hback (by decide)]

/-- The sigma functions keep 0, so zeros are followed by zero. -/
theorem scheduleNext_zeros (m : Nat) : scheduleNext (List.replicate m 0#32) = 0#32 := by
  simp [scheduleNext, smallSigma0, smallSigma1, rotr]

theorem scheduleExtend_zeros (n m : Nat) : scheduleExtend n (List.replicate m 0#32) = List.replicate (m + n) 0#32 := by
  induction n generalizing m with
  | zero => rfl
  | succ n ih => rw [scheduleExtend, scheduleNext_zeros, ← List.replicate_succ', ih, Nat.add_right_comm, Nat.add_assoc]

/-- Settles O45: the extension keeps the block in front, follows the recurrence, and makes zeros of zeros (R140, R141). -/
theorem scheduleFollowsTheRecurrence : Obligations.ScheduleFollowsTheRecurrence := by
  refine ⟨fun msg => ⟨schedule_length msg, schedule_getD_block msg, fun t h16 h63 => ?_⟩, fun t => ?_⟩
  · have ht : t < (schedule msg).length := (Nat.lt_succ_of_le h63).trans_eq (schedule_length msg).symm
    exact (followsRecurrence_schedule msg t h16 ht).trans (scheduleNext_take h16 ht)
  · rw [schedule, Vector.toList_replicate, scheduleExtend_zeros, List.getD_eq_getElem?_getD,
      List.getElem?_getD_replicate_default_eq]

/-! ### The rounds -/

/-- After one round more the last constant and the last schedule word have been mixed in (R143). -/
theorem mix_take_succ {ks ws : List Word} {i : Nat} (hk : i < ks.length) (hw : i < ws.length) (r : Regs) :
    mix (ks.take (i + 1)) (ws.take (i + 1)) r =
      round (ks.getD i 0#32) (ws.getD i 0#32) (mix (ks.take i) (ws.take i) r) := by
  induction i generalizing ks ws r with
  | zero =>
    obtain ⟨k, ks, rfl⟩ := List.exists_cons_of_length_pos hk
    obtain ⟨w, ws, rfl⟩ := List.exists_cons_of_length_pos hw
    rfl
  | succ i ih =>
    obtain ⟨k, ks, rfl⟩ := List.exists_cons_of_length_pos (Nat.zero_lt_of_lt hk)
    obtain ⟨w, ws, rfl⟩ := List.exists_cons_of_length_pos (Nat.zero_lt_of_lt hw)
    exact ih (Nat.lt_of_succ_lt_succ hk) (Nat.lt_of_succ_lt_succ hw) (round k w r)

/-- The working registers before each round, and after the last, as a sequence (R143). -/
theorem exists_regs_of_rounds {w : List Word} (hw : w.length = 64) (r : Regs) :
    ∃ regs : Nat → Regs, regs 0 = r ∧
      (∀ i : Nat, i < 64 → regs (i + 1) = round (kRom.getD i 0#32) (w.getD i 0#32) (regs i)) ∧ rounds w r = regs 64 := by
  have hk : kRom.length = 64 := rfl
  refine ⟨fun i => mix (kRom.take i) (w.take i) r, rfl, fun i hi => ?_, ?_⟩
  · exact mix_take_succ (hi.trans_eq hk.symm) (hi.trans_eq hw.symm) r
  · simp only [rounds, List.take_of_length_le hk.le, List.take_of_length_le hw.le]

/-- Settles O46: the registers start at the seed, and the update adds those after round 63 to H (R142, R143, R144). -/
theorem compressIsSixtyFourRounds : Obligations.CompressIsSixtyFourRounds := by
  intro h msg
  obtain ⟨regs, hseed, hround, hrounds⟩ := exists_regs_of_rounds (schedule_length msg) (seed h)
  refine ⟨regs, hseed, hround, ?_⟩
  simp only [compress, hrounds]

/-! ### The instruction -/

/-- Settles O11: COMPRESS is gated as every command and write is, and the ENGINE's turn completes it (R145). -/
theorem compressIssuesAndCompletes : Obligations.CompressIssuesAndCompletes := by
  refine ⟨rfl, fun _ => exec_of_commandOf_idle (c := .compress) rfl, fun _ => exec_of_commandOf_busy (c := .compress) rfl,
    fun _ _ hp hop => exec_wrCmd_of_op hp hop (by decide), fun s i v hp => ?_, fun s es hp he => ?_⟩
  · have hbusy : s.pend ≠ .none := by simp [hp]
    calc exec (.wrMsg i v) s = .next (whenIdle (State.setMsg i v) s) := rfl
      _ = .next { s with errBusy := true } := by rw [whenIdle_busy hbusy, raise_busy]
  · simpa only [hp] using engineTurnCompletesThePendingOperation s es (.inl he)

end Sys2Proof.Machine

/-! ## Proofs: digest output (spec/43_digest_output.md) -/

namespace Sys2Proof.Machine

/-! ### The digest bytes -/

/-- Digest byte `4 j + m` is byte `m` of word `j` (R160). -/
theorem serialize_getElem (h : Vector Word 8) (j : Fin 8) (m : Fin 4) :
    (serialize h)[4 * j.val + m.val]'(by omega) = byteBE h[j.val] m.val := by
  have hword : (4 * j.val + m.val) / 4 = j.val := by omega
  have hbyte : (4 * j.val + m.val) % 4 = m.val := by omega
  simp only [serialize, Vector.getElem_ofFn, hword, hbyte]

/-- Settles O50: the four bytes of each word, the first in bits 31:24 (R160). -/
theorem serializeIsBigEndian : Obligations.SerializeIsBigEndian :=
  fun h j => ⟨serialize_getElem h j 0, serialize_getElem h j 1, serialize_getElem h j 2, serialize_getElem h j 3⟩

/-! ### The hex encoder -/

/-- The first character of a byte is that of its high nibble (R161). -/
theorem encHex_getElem_high (d : Vector Byte 32) (k : Fin 32) :
    (encHex d)[2 * k.val]'(by omega) = hexChar (d[k.val].extractLsb' 4 4) := by
  simp [encHex]

/-- The second character of a byte is that of its low nibble (R161). -/
theorem encHex_getElem_low (d : Vector Byte 32) (k : Fin 32) :
    (encHex d)[2 * k.val + 1]'(by omega) = hexChar (d[k.val].extractLsb' 0 4) := by
  have hbyte : (2 * k.val + 1) / 2 = k.val := by omega
  have hodd : (2 * k.val + 1) % 2 ≠ 0 := by omega
  simp only [encHex, Vector.getElem_ofFn, hbyte, if_neg hodd]

/-- The characters of the nibbles are the digits and `a` to `f` (R162). -/
theorem hexChar_range : ∀ n : BitVec 4,
    (0x30 ≤ (hexChar n).toNat ∧ (hexChar n).toNat ≤ 0x39) ∨ (0x61 ≤ (hexChar n).toNat ∧ (hexChar n).toNat ≤ 0x66) := by decide

/-- A nibble's character stands for the nibble (R162). -/
theorem value_hexChar : ∀ n : BitVec 4,
    (if (hexChar n).toNat ≤ 0x39 then (hexChar n).toNat - 0x30 else (hexChar n).toNat - 0x61 + 10) = n.toNat := by decide

/-- A byte is its two nibbles. -/
theorem toNat_eq_nibbles (b : Byte) : b.toNat = 16 * (b.extractLsb' 4 4).toNat + (b.extractLsb' 0 4).toNat := by
  simp only [BitVec.extractLsb'_toNat, Nat.shiftRight_eq_div_pow]
  omega

/-- Settles O51: the characters of a byte are those of its nibbles, which put together are the byte (R161, R162, R166). -/
theorem hexOutputIsTwoLowercaseDigitsAByte : Obligations.HexOutputIsTwoLowercaseDigitsAByte := by
  intro d k
  simp only [encHex_getElem_high, encHex_getElem_low, value_hexChar, List.forall_mem_cons]
  exact ⟨⟨hexChar_range _, hexChar_range _, List.forall_mem_nil _⟩, toNat_eq_nibbles _⟩

/-! ### The Base64 encoder -/

/-- Byte `k` of the digest, zero past its end. -/
def byteOrZero (d : Vector Byte 32) (k : Nat) : Byte := d[k]?.getD 0#8

theorem byteOrZero_of_lt (d : Vector Byte 32) {k : Nat} (hk : k < 32) : byteOrZero d k = d[k] := by
  simp [byteOrZero, hk]

/-- Sextet `m` of group `g` of the digest bytes, the last group filled up with zeros. -/
def groupSextet (d : Vector Byte 32) (g m : Nat) : BitVec 6 :=
  sextet (byteOrZero d (3 * g)) (byteOrZero d (3 * g + 1)) (byteOrZero d (3 * g + 2)) m

/-- The last group has two bytes. -/
theorem groupSextet_last (d : Vector Byte 32) (m : Nat) : groupSextet d 10 m = sextet d[30] d[31] 0#8 m := rfl

/-- Six zero bits more at the end move the sextets of the last group's 18 bits up by one. -/
theorem sextet_zero {b0 b1 : Byte} {m : Nat} (hm : m < 3) :
    sextet b0 b1 0#8 m = (b0 ++ b1 ++ 0#2).extractLsb' (12 - 6 * m) 6 := by
  have hzero : b0 ++ b1 ++ 0#8 = b0 ++ b1 ++ 0#2 ++ 0#6 := BitVec.append_assoc' (x₂ := 0#2) (x₃ := 0#6)
  have hstart : 18 - 6 * m = 12 - 6 * m + 6 := by omega
  rw [sextet, hzero, hstart, BitVec.extractLsb'_append_eq_of_le (Nat.le_add_left 6 _), Nat.add_sub_cancel]

/-- Before the pad each character is that of its sextet (R163). -/
theorem encB64_getElem (d : Vector Byte 32) {p : Nat} (hp : p < 43) :
    (encB64 d)[p] = b64Char (groupSextet d (p / 4) (p % 4)) := by
  by_cases hfull : p < 40
  · simp only [encB64, Vector.getElem_ofFn, dif_pos hfull, groupSextet]
    rw [byteOrZero_of_lt, byteOrZero_of_lt, byteOrZero_of_lt]
  · obtain ⟨hgroup, hsextet⟩ : p / 4 = 10 ∧ p % 4 = p - 40 := by omega
    have hlast : p - 40 < 3 := by omega
    simp only [encB64, Vector.getElem_ofFn, dif_neg hfull, if_pos hp, hgroup, hsextet, groupSextet_last, sextet_zero hlast]

/-- The last character is the pad (R163). -/
theorem encB64_getElem_last (d : Vector Byte 32) : (encB64 d)[43] = 0x3D#8 := by
  simp [encB64, b64Pad]

/-- The alphabet does not have the pad in it (R164). -/
theorem b64Char_ne_pad : ∀ x : BitVec 6, b64Char x ≠ 0x3D#8 := by decide

/-- The third sextet of two bytes ends in two zeros. -/
theorem sextet_two_zero (b0 b1 : Byte) : sextet b0 b1 0#8 2 = b1.extractLsb' 0 4 ++ 0#2 := by
  rw [sextet_zero (by decide)]
  refine BitVec.eq_of_getLsbD_eq fun i hi => ?_
  simp only [BitVec.getLsbD_extractLsb', BitVec.getLsbD_append]
  grind

/-- Settles O52: the characters by position, the last one of a sextet that ends in two zeros (R163, R164, R166). -/
theorem base64OutputHasOnePadAtItsEnd : Obligations.Base64OutputHasOnePadAtItsEnd := by
  refine fun d => ⟨encB64_getElem_last d, fun p => ⟨_, encB64_getElem d p.isLt, b64Char_ne_pad _⟩, d[31].extractLsb' 0 4, ?_⟩
  rw [← sextet_two_zero d[30]]
  exact encB64_getElem d (by decide)

/-! ### Decoding the Base64 output -/

/-- A character of the alphabet has the value of its sextet (R164). -/
theorem b64Value_b64Char : ∀ x : BitVec 6, b64Value (b64Char x) = x := by decide

/-- Each character of the output has the value of its sextet: the pad's counts 0, as the last group's fourth sextet is (R163). -/
theorem b64Value_encB64 (d : Vector Byte 32) {g m : Nat} (hg : g < 11) (hm : m < 4) :
    b64Value ((encB64 d)[4 * g + m]'(by omega)) = groupSextet d g m := by
  by_cases hp : 4 * g + m < 43
  · obtain ⟨hgroup, hsextet⟩ : (4 * g + m) / 4 = g ∧ (4 * g + m) % 4 = m := by omega
    rw [encB64_getElem d hp, b64Value_b64Char, hgroup, hsextet]
  · obtain ⟨rfl, rfl⟩ : g = 10 ∧ m = 3 := by omega
    have hzero : sextet d[30] d[31] 0#8 3 = 0#6 := BitVec.extractLsb'_append_eq_of_add_le (by decide)
    rw [groupSextet_last, hzero, encB64_getElem_last]
    rfl

/-- The four sextets of three bytes are their 24 bits (R163). -/
theorem sextets_append (b0 b1 b2 : Byte) :
    sextet b0 b1 b2 0 ++ sextet b0 b1 b2 1 ++ sextet b0 b1 b2 2 ++ sextet b0 b1 b2 3 = b0 ++ b1 ++ b2 := by
  calc sextet b0 b1 b2 0 ++ sextet b0 b1 b2 1 ++ sextet b0 b1 b2 2 ++ sextet b0 b1 b2 3
      = (b0 ++ b1 ++ b2).extractLsb' 12 12 ++ sextet b0 b1 b2 2 ++ sextet b0 b1 b2 3 :=
        congrArg (· ++ sextet b0 b1 b2 2 ++ sextet b0 b1 b2 3) (BitVec.extractLsb'_append_extractLsb'_eq_extractLsb' rfl)
    _ = (b0 ++ b1 ++ b2).extractLsb' 6 18 ++ sextet b0 b1 b2 3 :=
        congrArg (· ++ sextet b0 b1 b2 3) (BitVec.extractLsb'_append_extractLsb'_eq_extractLsb' rfl)
    _ = (b0 ++ b1 ++ b2).extractLsb' 0 24 := BitVec.extractLsb'_append_extractLsb'_eq_extractLsb' rfl
    _ = b0 ++ b1 ++ b2 := BitVec.extractLsb'_eq_self

/-- The bytes of 24 bits, as those of a packed word without its last byte (R64). -/
theorem threeBytes_bytes (b0 b1 b2 : Byte) : (b0 ++ b1 ++ b2).extractLsb' 16 8 = b0 ∧
    (b0 ++ b1 ++ b2).extractLsb' 8 8 = b1 ∧ (b0 ++ b1 ++ b2).extractLsb' 0 8 = b2 := by
  obtain ⟨h0, h1, h2, -⟩ := packBE_bytes b0 b1 b2 0#8
  have hskip (k : Nat) : (packBE b0 b1 b2 0#8).extractLsb' (k + 8) 8 = (b0 ++ b1 ++ b2).extractLsb' k 8 :=
    BitVec.extractLsb'_append_eq_of_le (Nat.le_add_left 8 k)
  exact ⟨(hskip 16).symm.trans h0, (hskip 8).symm.trans h1, (hskip 0).symm.trans h2⟩

/-- The four sextets of a group hold its three bytes in order (R163). -/
theorem groupSextets_byte (d : Vector Byte 32) (g : Nat) (m : Fin 3) :
    (groupSextet d g 0 ++ groupSextet d g 1 ++ groupSextet d g 2 ++ groupSextet d g 3).extractLsb' (16 - 8 * m.val) 8 =
      byteOrZero d (3 * g + m.val) := by
  obtain ⟨h0, h1, h2⟩ := threeBytes_bytes (byteOrZero d (3 * g)) (byteOrZero d (3 * g + 1)) (byteOrZero d (3 * g + 2))
  simp only [groupSextet, sextets_append]
  match m with
  | 0 => exact h0
  | 1 => exact h1
  | 2 => exact h2

/-- Decoding the Base64 output of 32 bytes gives them back (R163, R164). -/
theorem decodeB64_encB64 (d : Vector Byte 32) : decodeB64 (encB64 d) = d := by
  refine Vector.ext fun k hk => ?_
  have hgroup : k / 3 < 11 := by omega
  have hmod : k % 3 < 3 := Nat.mod_lt k (by decide)
  have hval (m : Nat) (hm : m < 4) := b64Value_encB64 d hgroup hm
  calc (decodeB64 (encB64 d))[k]
      = (groupSextet d (k / 3) 0 ++ groupSextet d (k / 3) 1 ++ groupSextet d (k / 3) 2 ++ groupSextet d (k / 3) 3).extractLsb'
          (16 - 8 * (k % 3)) 8 := by
        rw [← hval 0 (by decide), ← hval 1 (by decide), ← hval 2 (by decide), ← hval 3 (by decide)]
        simp only [decodeB64, Vector.getElem_ofFn, Nat.add_zero]
    _ = byteOrZero d (3 * (k / 3) + k % 3) := groupSextets_byte d (k / 3) ⟨k % 3, hmod⟩
    _ = d[k] := by rw [Nat.div_add_mod, byteOrZero_of_lt d hk]

/-- Settles O53: decoding undoes the Base64 encoder, so the hex encoder sees the same bytes (R167). -/
theorem base64AndHexEncodeTheSameBytes : Obligations.Base64AndHexEncodeTheSameBytes := by
  intro h
  have hdecode : decodeB64 (encB64 (serialize h)) = serialize h := decodeB64_encB64 (serialize h)
  exact ⟨hdecode, congrArg encHex hdecode⟩

/-! ### ENCODE -/

/-- Settles O12: the two formats of ENCODE set PEND, behind the gate of every command (R165). -/
theorem encodeIssuesHexAndBase64 : Obligations.EncodeIssuesHexAndBase64 :=
  ⟨rfl, rfl,
    fun _ hp => ⟨exec_of_commandOf_idle (c := .encode 0#4) rfl hp, exec_of_commandOf_idle (c := .encode 1#4) rfl hp⟩,
    fun _ hp => ⟨exec_of_commandOf_busy (c := .encode 0#4) rfl hp, exec_of_commandOf_busy (c := .encode 1#4) rfl hp⟩⟩

/-- The other formats clear the output and raise ERR_FMT (R25, R165). -/
theorem encodeIssue_of_badFmt {fmt : BitVec 4} (hfmt : 2#4 ≤ fmt) (s : State) :
    encodeIssue fmt s = { s with outb := Vector.replicate 64 0#8, outlen := 0#8, errFmt := true } := by
  obtain ⟨rfl, -⟩ | ⟨rfl, -⟩ | ⟨-, -, h⟩ := encodeIssue_cases fmt s
  · exact absurd hfmt (by decide)
  · exact absurd hfmt (by decide)
  · rw [h, raise_fmt]
    rfl

/-- Settles O13: a bad format is decoded as encoded, behind the gate of every command; with a nonzero RSV the word is ILLEGAL
(R25, R165, log 7). -/
theorem encodeBadFormatClearsAndFlags : Obligations.EncodeBadFormatClearsAndFlags := by
  obtain ⟨-, -, hillegal, -⟩ := illegalWordsRaiseErrCmdOnly
  refine ⟨fun fmt hfmt => decodeEncodeRoundTrip (.encodeBadFmt fmt) (decide_eq_true hfmt), fun s fmt hp hfmt => ?_,
    fun s fmt => exec_of_commandOf_busy (c := .encode fmt) rfl, fun s w hp _ hrsv => hillegal s w hp (.inl hrsv)⟩
  rw [exec_of_commandOf_idle (c := .encode fmt) rfl hp, perform, encodeIssue_of_badFmt hfmt]

/-- A filled output buffer starts with its characters (R165). -/
theorem fillOut_getElem {n k : Nat} (v : Vector Byte n) (hn : k < n) (hk : k < 64) : (fillOut v.toList)[k] = v[k] := by
  simp [fillOut, hn]

/-- Settles O14: the ENGINE's turn leaves the filled buffer, whose characters are those of the encoding (R165, R166). -/
theorem encodeCompletionFillsTheOutput : Obligations.EncodeCompletionFillsTheOutput := by
  refine ⟨fun s t es hp he hst => ?_, fun s t es hp he hst => ?_⟩
  · have hturn := engineTurnCompletesThePendingOperation s es (.inl he)
    rw [hst, hp] at hturn
    cases hturn
    refine ⟨fun k => ?_, rfl⟩
    simpa only [hexOutput] using fillOut_getElem (encHex (serialize s.h)) k.isLt k.isLt
  · have hturn := engineTurnCompletesThePendingOperation s es (.inl he)
    rw [hst, hp] at hturn
    cases hturn
    refine ⟨fun k => ?_, fun k => b64Output_of_le, rfl⟩
    simpa only [b64Output] using fillOut_getElem (encB64 (serialize s.h)) k.isLt _

end Sys2Proof.Machine

/-! ## Proofs: bus access (spec/44_bus_access.md) -/

namespace Sys2Proof.Machine

/-! ### Malformed and unmapped accesses -/

/-- What R191 and R192 say of such an access, as a record update. -/
theorem badAccess_eq_addrErrorOf (x : Xfer) (size : BitVec 3) (off : BitVec 8) (s : State) :
    badAccess x size off s = addrErrorOf x size off s := by
  cases x <;> simp only [badAccess, raise_addr, addrErrorOf, State.record]

/-- Of whatever kind and size, an access of an offset the map does not list is BAD (R61, R88). -/
theorem decodeAccess_of_unmappedOff : ∀ off : BitVec 8, unmappedOff off → ∀ size, decodeAccess off size = .bad := by
  unfold unmappedOff
  decide +kernel

/-- A step whose next event is an access of a BAD target raises ERR_ADDR (R191, R192). -/
theorem step_of_badAccess {s : State} {key : BitVec 12} {data : Word} {es : List Event}
    (he : s.events = .host (.access key data) :: es) (hbad : decodeAccess (keyOff key) (keySize key) = .bad) :
    step s = .next (addrErrorOf (xferOf key data) (keySize key) (keyOff key) { s with events := es }) := by
  rw [step_of_cons he, eventStep, hostStep_access, busAccess_of_bad hbad, badAccess_eq_addrErrorOf]

/-- A row whose meaning is the malformed access raises ERR_ADDR (R191, R192). -/
theorem exec_of_badAccess {i : Instr} {x : Xfer} {size : BitVec 3} {off : BitVec 8} {s : State}
    (hi : exec i s = .next (badAccess x size off s)) : exec i s = .next (addrErrorOf x size off s) := by
  rw [hi, badAccess_eq_addrErrorOf]

/-- Settles O27: the rows are malformed accesses, and every unmapped offset is BAD (R191). -/
theorem unmappedAccessesRaiseErrAddr : Obligations.UnmappedAccessesRaiseErrAddr := by
  refine ⟨fun s x off => ⟨?_, ?_, ?_, ?_⟩, fun s key data es he hoff => ?_⟩
  iterate 4 exact exec_of_badAccess rfl
  exact step_of_badAccess he (decodeAccess_of_unmappedOff (keyOff key) hoff (keySize key))

/-- Settles O28: the rows are malformed accesses, and BAD is the first case of the access decoder (R88, R192). -/
theorem malformedAccessesRaiseErrAddr : Obligations.MalformedAccessesRaiseErrAddr := by
  refine ⟨fun s x off => ⟨?_, ?_, ?_, ?_⟩, fun s key data es he hform => ?_⟩
  iterate 4 exact exec_of_badAccess rfl
  exact step_of_badAccess he (if_pos hform)

/-! ### The rows and the general rules -/

/-- The general read rule itself records nothing (R181). -/
theorem busRead_reads (off : BitVec 8) (size : BitVec 3) (s : State) : (busRead off size s).2.reads = s.reads := by
  cases h : decodeAccess off size with
  | msg | hash | out =>
    simp only [busRead, h]
    split <;> rfl
  | _ => simp only [busRead, h, State.raise_reads]

/-- Settles O29: the row and the general rules are the same host step; of the two rules the kind in the key chooses
(R180, R181). -/
theorem rowsAgreeWithTheGeneralBusRules : Obligations.RowsAgreeWithTheGeneralBusRules := by
  intro s key data i hd
  rw [← hostStep_of_decode hd, hostStep_access, xferOf]
  cases keyIsWrite key with
  | true => rfl
  | false => simp only [Bool.false_eq_true, if_false, busAccess, State.record, busRead_reads]

/-! ### Reads -/

/-- Settles O19: the read records 0 (R185). -/
theorem readCmdReturnsZero : Obligations.ReadCmdReturnsZero := fun _ => rfl

/-- Settles O20: the read records the constant (R187). -/
theorem readIdReturnsTheConstant : Obligations.ReadIdReturnsTheConstant := fun _ => rfl

/-- A row whose meaning is the gated read records the word, or 0 with ERR_BUSY (R181). -/
theorem exec_of_readWhenIdle {i : Instr} {off : BitVec 8} {v : Word} {s : State} (hi : exec i s = .next (readWhenIdle off v s)) :
    (s.pend = .none → exec i s = .next { s with reads := s.reads ++ [⟨off, 4#3, v⟩] }) ∧
      (s.pend ≠ .none → exec i s = .next { s with errBusy := true, reads := s.reads ++ [⟨off, 4#3, 0#32⟩] }) := by
  refine ⟨fun hp => ?_, fun hp => ?_⟩
  · rw [hi, readWhenIdle_idle hp, State.record]
  · rw [hi, readWhenIdle_busy hp, raise_busy, State.record]

/-- Settles O23: a gated read of MSG[i] (R188). -/
theorem readMsgReturnsTheWord : Obligations.ReadMsgReturnsTheWord :=
  fun _ i => exec_of_readWhenIdle (i := .rdMsg i) rfl

/-- A hash word is its four digest bytes packed (R160). -/
theorem packBE_serialize (h : Vector Word 8) (j : Fin 8) :
    packBE ((serialize h)[4 * j.val]'(by omega)) ((serialize h)[4 * j.val + 1]'(by omega))
      ((serialize h)[4 * j.val + 2]'(by omega)) ((serialize h)[4 * j.val + 3]'(by omega)) = h[j.val] := by
  obtain ⟨h0, h1, h2, h3⟩ := serializeIsBigEndian h j
  rw [h0, h1, h2, h3]
  exact packBE_byteBE _

/-- Settles O24: a gated read of H[j], which packs its digest bytes (R160, R189). -/
theorem readHashReturnsTheDigestBytes : Obligations.ReadHashReturnsTheDigestBytes := by
  intro s j
  obtain ⟨hidle, hbusy⟩ := exec_of_readWhenIdle (i := .rdHash j) (s := s) rfl
  exact ⟨hidle, hbusy, (packBE_serialize s.h j).symm⟩

/-- A word of a fresh output is zero when all its characters are past OUTLEN (R24). -/
theorem outWord_of_outputFresh {s : State} (hs : s.outputFresh) {n : Fin 16} (hn : s.outlen.toNat ≤ 4 * n.val) :
    outWord s.outb n = 0#32 := by
  obtain ⟨-, hzero⟩ := freshOutputIsZeroPastItsLength s hs
  have hchar {k : Nat} {h64 : k < 64} (hk : 4 * n.val ≤ k) : s.outb[k] = 0#8 := hzero ⟨k, h64⟩ (hn.trans hk)
  rw [outWord, hchar le_rfl, hchar (Nat.le_add_right _ 1), hchar (Nat.le_add_right _ 2), hchar (Nat.le_add_right _ 3)]
  rfl

/-- Settles O25: a gated read of four characters packed, which past the end of a fresh output are zero (R24, R190). -/
theorem readOutReturnsFourCharacters : Obligations.ReadOutReturnsFourCharacters := by
  intro s n
  obtain ⟨hidle, hbusy⟩ := exec_of_readWhenIdle (i := .rdOut n) (s := s) rfl
  refine ⟨hidle, hbusy, fun hp hs hn => ?_⟩
  rw [hidle hp, outWord_of_outputFresh hs hn]
  rfl

/-! ### Writes -/

/-- Settles O26: each of the four rows raises ERR_ADDR and does nothing else (R184). -/
theorem writesToReadOnlyRegistersRaiseErrAddr : Obligations.WritesToReadOnlyRegistersRaiseErrAddr := by
  intro s v j n i hi
  simp only [List.mem_cons, List.not_mem_nil, or_false] at hi
  obtain rfl | rfl | rfl | rfl := hi <;> exact congrArg _ (raise_addr s)

theorem exec_wrMsg_idle (i : Fin 16) (v : Word) {s : State} (hp : s.pend = .none) :
    exec (.wrMsg i v) s = .next (s.setMsg i v) :=
  congrArg _ (whenIdle_idle hp)

theorem exec_wrMsg_busy (i : Fin 16) (v : Word) {s : State} (hp : s.pend ≠ .none) :
    exec (.wrMsg i v) s = .next { s with errBusy := true } :=
  congrArg _ ((whenIdle_busy hp).trans (raise_busy s))

/-- The same write again changes nothing. -/
theorem State.setMsg_setMsg (i : Fin 16) (v : Word) (s : State) : (s.setMsg i v).setMsg i v = s.setMsg i v := by
  simp only [State.setMsg, Vector.set_set]

/-- A stored word is the one a read of its register then returns (R183, R188). -/
theorem exec_rdMsg_setMsg (i : Fin 16) (v : Word) {s : State} (hp : s.pend = .none) :
    exec (.rdMsg i) (s.setMsg i v) = .next { s.setMsg i v with reads := (s.setMsg i v).reads ++ [⟨msgOff i, 4#3, v⟩] } := by
  have hword : (s.setMsg i v).msg[i.val] = v := Vector.getElem_set_self _
  obtain ⟨hread, -⟩ := readMsgReturnsTheWord (s.setMsg i v) i
  rw [hread hp, hword]
  rfl

/-- An instruction that carries a command leaves MSG as it is (R22, R183). -/
theorem exec_msg_of_commandOf {i : Instr} {c : Command} (hc : commandOf i = some c) {s t : State} (h : exec i s = .next t) :
    t.msg = s.msg := by
  by_contra hne
  obtain ⟨-, k, v, rfl, -⟩ := (exec_accessEffect h).msg_changed hne
  cases hc

/-- Settles O22: the gated store, its frame and its read back; neither a command nor the ENGINE touches MSG (R22, R183). -/
theorem writeMsgStoresTheWord : Obligations.WriteMsgStoresTheWord := by
  refine ⟨fun s i v hp => ⟨s.setMsg i v, exec_wrMsg_idle i v hp, rfl, Vector.getElem_set_self _, fun j hj => ?_, ?_,
    exec_rdMsg_setMsg i v hp⟩, fun s i v => exec_wrMsg_busy i v, fun s t i hi hex => ?_, fun s t es he hst => ?_⟩
  · exact Vector.getElem_set_ne i.isLt j.isLt fun h => hj (Fin.ext h.symm)
  · rw [exec_wrMsg_idle (s := s.setMsg i v) i v hp, State.setMsg_setMsg]
  · have hcommand : ∃ c, commandOf i = some c := by
      simp only [List.mem_cons, List.not_mem_nil, or_false] at hi
      obtain (rfl | rfl | rfl | rfl | rfl) | ⟨fmt, rfl⟩ := hi <;> exact ⟨_, rfl⟩
    obtain ⟨c, hc⟩ := hcommand
    exact exec_msg_of_commandOf hc hex
  · rw [step_of_engineTurn (.inl he)] at hst
    cases hst
    exact engineStep_msg { s with events := es }

end Sys2Proof.Machine

/-! ## Proofs: host protocol (spec/45_host_protocol.md) -/

namespace Sys2Proof.Machine

/-! ### Runs as functions of the state -/

/-- What one item of the host does: a command word is written to CMD, an access goes by the general rules R180 and R181. -/
def itemEffect : HostItem → State → State
  | .command w, s => cmdWrite w s
  | .access key data, s => busAccess (xferOf key data) (keySize key) (keyOff key) s

/-- What one event does. -/
def eventEffect : Event → State → State
  | .host item, s => itemEffect item s
  | .engine, s => engineStep s
  | .reset, s => s.applyReset

/-- What a list of events does, first to last. -/
def runEvents (es : List Event) (s : State) : State := es.foldl (fun s e => eventEffect e s) s

@[simp] theorem runEvents_nil (s : State) : runEvents [] s = s := rfl

@[simp] theorem runEvents_cons (e : Event) (es : List Event) (s : State) :
    runEvents (e :: es) s = runEvents es (eventEffect e s) := rfl

theorem runEvents_append (es fs : List Event) (s : State) : runEvents (es ++ fs) s = runEvents fs (runEvents es s) :=
  List.foldl_append

/-- A host step is the effect of its item. -/
theorem hostStep_eq_itemEffect (item : HostItem) (s : State) : hostStep item s = .next (itemEffect item s) := by
  cases item with
  | command w =>
    have hd : decode (.command w) = .ok (decodeCommandRow w) := rfl
    rw [hostStep_of_decode hd, exec_of_commandOf (commandOf_decodeCommandRow w)]
    rfl
  | access key data => exact hostStep_access key data s

/-- The step of an event is its effect. -/
theorem eventStep_eq_eventEffect (e : Event) (s : State) : eventStep e s = .next (eventEffect e s) := by
  cases e with
  | host item => exact hostStep_eq_itemEffect item s
  | engine => rfl
  | reset => rfl

/-- The effect of an item that decodes to an instruction is the instruction's. -/
theorem itemEffect_of_exec {item : HostItem} {i : Instr} {s t : State} (hd : decode item = .ok i) (hi : exec i s = .next t) :
    itemEffect item s = t := by
  have h := (hostStep_eq_itemEffect item s).symm.trans ((hostStep_of_decode hd s).trans hi)
  cases h
  rfl

theorem itemEffect_withEvents (item : HostItem) (s : State) (es : List Event) :
    itemEffect item (s.withEvents es) = (itemEffect item s).withEvents es := by
  cases item with
  | command w => exact whenIdle_withEvents (perform_withEvents _ s es)
  | access key data => exact busAccess_withEvents _ _ _ s es

theorem eventEffect_withEvents (e : Event) (s : State) (es : List Event) :
    eventEffect e (s.withEvents es) = (eventEffect e s).withEvents es := by
  cases e with
  | host item => exact itemEffect_withEvents item s es
  | engine => exact engineStep_withEvents s es
  | reset => rfl

theorem runEvents_withEvents (fs : List Event) (s : State) (es : List Event) :
    runEvents fs (s.withEvents es) = (runEvents fs s).withEvents es := by
  induction fs generalizing s with
  | nil => rfl
  | cons e fs ih => rw [runEvents_cons, runEvents_cons, eventEffect_withEvents, ih]

/-- As many steps as there are events run the events, and leave none; the rest of the run goes on from there. -/
theorem run_add_length (s : State) (n : Nat) :
    core.run (s.events.length + n) s = core.run n ((runEvents s.events s).withEvents []) := by
  generalize he : s.events = es
  induction es generalizing s with
  | nil =>
    have hs : s.withEvents [] = s := by rw [← he]; rfl
    rw [List.length_nil, Nat.zero_add, runEvents_nil, hs]
  | cons e es ih =>
    have hstep : step s = .next ((eventEffect e s).withEvents es) :=
      (step_of_cons he).trans ((eventStep_eq_eventEffect e (s.withEvents es)).trans (congrArg _ (eventEffect_withEvents e s es)))
    rw [List.length_cons, Nat.add_right_comm, run_succ hstep, ih _ rfl, runEvents_withEvents, runEvents_cons]
    rfl

/-- One step more, and the ENGINE has completed what was pending. -/
theorem run_length_succ (s : State) :
    core.run (s.events.length + 1) s = .next (engineStep ((runEvents s.events s).withEvents [])) := by
  rw [run_add_length]
  exact run_succ (step_of_nil rfl)

/-- Settles O7: the events are run one a step, and the step after them is the ENGINE's (R208, R247, log 3). -/
theorem everyRunEnds : Obligations.EveryRunEnds :=
  fun s => ⟨_, run_length_succ s, engineStep_events _, engineStep_pend _⟩

/-! ### The host's record is not read -/

/-- The state with another record of the host's reads. -/
def State.withReads (s : State) (rs : List ReadRecord) : State := { s with reads := rs }

/-- The state with `rs` read before all that its record holds. -/
def State.afterReads (s : State) (rs : List ReadRecord) : State := s.withReads (rs ++ s.reads)

theorem perform_afterReads (c : Command) (s : State) (rs : List ReadRecord) :
    perform c (s.afterReads rs) = (perform c s).afterReads rs := by
  cases c with
  | encode fmt =>
    simp only [perform, encodeIssue]
    split_ifs <;> rfl
  | _ => rfl

theorem record_afterReads (off : BitVec 8) (size : BitVec 3) (v : Word) (s : State) (rs : List ReadRecord) :
    (s.afterReads rs).record off size v = (s.record off size v).afterReads rs :=
  congrArg (State.withReads s) (List.append_assoc rs s.reads _)

theorem whenIdle_afterReads {f : State → State} {s : State} {rs : List ReadRecord}
    (hf : f (s.afterReads rs) = (f s).afterReads rs) : whenIdle f (s.afterReads rs) = (whenIdle f s).afterReads rs := by
  by_cases hp : s.pend = .none
  · rw [whenIdle_idle hp, whenIdle_idle (s := s.afterReads rs) hp, hf]
  · rw [whenIdle_busy hp, whenIdle_busy (s := s.afterReads rs) hp]
    rfl

/-- A read rule returns the same word whatever was read before. -/
theorem busRead_afterReads (off : BitVec 8) (size : BitVec 3) (s : State) (rs : List ReadRecord) :
    busRead off size (s.afterReads rs) = ((busRead off size s).1, (busRead off size s).2.afterReads rs) := by
  simp only [busRead, show (s.afterReads rs).pend = s.pend from rfl]
  cases decodeAccess off size with
  | msg | hash | out =>
    dsimp only
    split_ifs <;> rfl
  | _ => rfl

theorem busAccess_afterReads (x : Xfer) (size : BitVec 3) (off : BitVec 8) (s : State) (rs : List ReadRecord) :
    busAccess x size off (s.afterReads rs) = (busAccess x size off s).afterReads rs := by
  cases x with
  | write v =>
    simp only [busAccess, busWrite]
    cases decodeAccess off size with
    | cmd => exact whenIdle_afterReads (whenIdle_afterReads (perform_afterReads _ _ _))
    | msg i => exact whenIdle_afterReads rfl
    | _ => rfl
  | read => rw [busAccess, busRead_afterReads, record_afterReads, busAccess]

theorem engineStep_withReads (s : State) (rs : List ReadRecord) : engineStep (s.withReads rs) = (engineStep s).withReads rs := by
  obtain ⟨hp, h⟩ | ⟨hp, h⟩ | ⟨hp, h⟩ | ⟨hp, h⟩ := engineStep_cases s <;>
    rw [h] <;> simp only [engineStep, show (s.withReads rs).pend = s.pend from rfl, hp] <;> rfl

theorem engineStep_record (off : BitVec 8) (size : BitVec 3) (v : Word) (s : State) :
    engineStep (s.record off size v) = (engineStep s).record off size v := by
  rw [State.record, ← State.withReads, engineStep_withReads, State.record, engineStep_reads, State.withReads]

theorem eventEffect_afterReads (e : Event) (s : State) (rs : List ReadRecord) :
    eventEffect e (s.afterReads rs) = (eventEffect e s).afterReads rs := by
  cases e with
  | host item =>
    cases item with
    | command w => exact whenIdle_afterReads (perform_afterReads _ s rs)
    | access key data => exact busAccess_afterReads _ _ _ s rs
  | engine => rw [eventEffect, State.afterReads, engineStep_withReads, eventEffect, State.afterReads, engineStep_reads]
  | reset => rfl

/-! ### States alike but for STATUS reads -/

/-- The engine state alone: nothing read and nothing to come. -/
def State.bare (s : State) : State := (s.withReads []).withEvents []

/-- The same engine state, and the same words read apart from STATUS; the events to come play no part. -/
structure Alike (s t : State) : Prop where
  bare : s.bare = t.bare
  otherReads : s.otherReads = t.otherReads

theorem Alike.refl (s : State) : Alike s s := ⟨rfl, rfl⟩

theorem Alike.symm {s t : State} (h : Alike s t) : Alike t s := ⟨h.bare.symm, h.otherReads.symm⟩

theorem Alike.trans {s t u : State} (h : Alike s t) (h' : Alike t u) : Alike s u :=
  ⟨h.bare.trans h'.bare, h.otherReads.trans h'.otherReads⟩

theorem Alike.sameEngine {s t : State} (h : Alike s t) : s.sameEngine t :=
  ⟨congrArg (·.h) h.bare, congrArg (·.msg) h.bare, congrArg (·.outb) h.bare, congrArg (·.outlen) h.bare,
    congrArg (·.pend) h.bare, congrArg (·.errAddr) h.bare, congrArg (·.errBusy) h.bare, congrArg (·.errCmd) h.bare,
    congrArg (·.errFmt) h.bare⟩

theorem Alike.flag {s t : State} (h : Alike s t) (f : ErrFlag) : t.flag f = s.flag f := by
  have hbare : t.bare.flag f = s.bare.flag f := by rw [h.bare]
  exact hbare

theorem withEvents_alike (s : State) (es : List Event) : Alike s (s.withEvents es) := ⟨rfl, rfl⟩

/-- A STATUS read is left out of the words compared. -/
theorem statusRead_alike (s : State) (v : Word) : Alike s (s.record 0x04#8 4#3 v) := by
  refine ⟨rfl, ?_⟩
  simp [State.otherReads]

/-- A state is its engine state with its record and its events put back. -/
theorem State.bare_afterReads_withEvents (s : State) : (s.bare.afterReads s.reads).withEvents s.events = s := by
  rw [State.afterReads, show s.bare.reads = [] from rfl, List.append_nil]
  rfl

/-- An event does the same to states that are alike: its effect depends on the engine state only, and what it reads comes last. -/
theorem eventEffect_alike {s t : State} (h : Alike s t) (e : Event) : Alike (eventEffect e s) (eventEffect e t) := by
  have heffect (u : State) : eventEffect e u = ((eventEffect e u.bare).afterReads u.reads).withEvents u.events := by
    rw [← eventEffect_afterReads, ← eventEffect_withEvents, u.bare_afterReads_withEvents]
  rw [heffect s, heffect t, h.bare]
  refine ⟨rfl, ?_⟩
  have hreads (u v : State) : ((u.afterReads v.reads).withEvents v.events).otherReads = v.otherReads ++ u.otherReads :=
    List.filter_append ..
  rw [hreads, hreads, h.otherReads]

theorem engineStep_alike {s t : State} (h : Alike s t) : Alike (engineStep s) (engineStep t) := eventEffect_alike h .engine

theorem runEvents_alike {s t : State} (h : Alike s t) (es : List Event) : Alike (runEvents es s) (runEvents es t) := by
  induction es generalizing s t with
  | nil => exact h
  | cons e es ih => exact ih (eventEffect_alike h e)

/-! ### A host that waits -/

/-- The run in which the ENGINE completes what is pending after each event. -/
def settledRun (es : List Event) (s : State) : State := es.foldl (fun s e => engineStep (eventEffect e s)) s

theorem settledRun_alike {s t : State} (h : Alike s t) (es : List Event) : Alike (settledRun es s) (settledRun es t) := by
  induction es generalizing s t with
  | nil => exact h
  | cons e es ih => exact ih (engineStep_alike (eventEffect_alike h e))

theorem engineStep_engineStep (s : State) : engineStep (engineStep s) = engineStep s := engineStep_idle (engineStep_pend s)

/-- Two reads at one offset are alike when they return one word, or are of STATUS. -/
theorem record_alike {off : BitVec 8} {v v' : Word} (s : State) (h : v = v' ∨ off = 0x04#8) :
    Alike (s.record off 4#3 v) (s.record off 4#3 v') := by
  obtain rfl | rfl := h
  · exact Alike.refl _
  · exact (statusRead_alike s v).symm.trans (statusRead_alike s v')

/-- A read may be made before or after the ENGINE's step, if only STATUS can tell. -/
theorem settled_alike_of_read {item : HostItem} {i : Instr} {off : BitVec 8} {v : State → Word} {s : State}
    (hd : decode item = .ok i) (hi : ∀ t, exec i t = .next (t.record off 4#3 (v t))) (hv : v s = v (engineStep s) ∨ off = 0x04#8) :
    Alike (engineStep (itemEffect item s)) (engineStep (itemEffect item (engineStep s))) := by
  rw [itemEffect_of_exec hd (hi s), itemEffect_of_exec hd (hi _), engineStep_record, engineStep_record, engineStep_engineStep]
  exact record_alike _ hv

theorem settled_alike_of_quietRead {item : HostItem} (hq : quietRead item) (s : State) :
    Alike (engineStep (itemEffect item s)) (engineStep (itemEffect item (engineStep s))) := by
  obtain hstatus | hid | hcmd := hq
  · exact settled_alike_of_read hstatus (fun _ => rfl) (.inr rfl)
  · exact settled_alike_of_read hid (fun _ => rfl) (.inl rfl)
  · exact settled_alike_of_read hcmd (fun _ => rfl) (.inl rfl)

/-- An event at which the host respects the BUSY hazard leads to the same, once the ENGINE has completed, whether a pending operation
completes before it or after it. -/
theorem settled_alike_of_respectsBusy {e : Event} {s : State} (he : e ≠ .engine) (hr : respectsBusy e s) :
    Alike (engineStep (eventEffect e s)) (engineStep (eventEffect e (engineStep s))) := by
  cases e with
  | host item =>
    obtain hp | hq := hr
    · rw [engineStep_idle hp]
      exact Alike.refl _
    · exact settled_alike_of_quietRead hq s
  | engine => exact absurd rfl he
  | reset =>
    have hreset : (engineStep s).applyReset = s.applyReset := by
      rw [State.applyReset, engineStep_reads, engineStep_events, State.applyReset]
    rw [eventEffect, eventEffect, hreset]
    exact Alike.refl _

theorem hazardFree_cons {e : Event} {es : List Event} {s : State} (h : hazardFree (e :: es) s) :
    respectsBusy e s ∧ hazardFree es ((eventEffect e s).withEvents es) := by
  obtain ⟨hr, hnext⟩ := h
  exact ⟨hr, hnext _ ((eventStep_eq_eventEffect e (s.withEvents es)).trans (congrArg _ (eventEffect_withEvents e s es)))⟩

/-- With the BUSY hazard respected the ENGINE's turns play no part: it may complete each operation at once. -/
theorem settledRun_alike_of_hazardFree {es : List Event} {s : State} (h : hazardFree es s) :
    Alike (engineStep (runEvents es s)) (settledRun (outsideEvents es) (engineStep s)) := by
  induction es generalizing s with
  | nil => exact Alike.refl _
  | cons e es ih =>
    obtain ⟨hr, hes⟩ := hazardFree_cons h
    have hevents := withEvents_alike (eventEffect e s) es
    have hrest : Alike (engineStep (runEvents (e :: es) s)) (settledRun (outsideEvents es) (engineStep (eventEffect e s))) :=
      (engineStep_alike (runEvents_alike hevents es)).trans
        ((ih hes).trans (settledRun_alike (engineStep_alike hevents.symm) _))
    by_cases he : e = .engine
    · subst he
      rw [eventEffect, engineStep_engineStep] at hrest
      exact hrest
    · have houtside : outsideEvents (e :: es) = e :: outsideEvents es := List.filter_cons_of_pos (decide_eq_true he)
      rw [houtside]
      exact hrest.trans (settledRun_alike (settled_alike_of_respectsBusy he hr) _)

/-- What the whole run of a host that respects the BUSY hazard ends in. -/
theorem run_alike_of_hazardFree {s t : State} (h : hazardFree s.events s)
    (hrun : core.run (s.events.length + 1) s = .next t) : Alike t (settledRun (outsideEvents s.events) (engineStep s)) := by
  rw [run_length_succ] at hrun
  cases hrun
  exact (engineStep_alike (withEvents_alike _ []).symm).trans (settledRun_alike_of_hazardFree h)

/-- Settles O41: each run ends as the run does in which the ENGINE completes each operation at once, and that one depends on the
outside's events only (R69, R209, R243). -/
theorem disciplinedHostIsDeterministic : Obligations.DisciplinedHostIsDeterministic := by
  intro s t t' es houtside hs hes hrun hrun'
  have ht : Alike t (settledRun (outsideEvents es) (engineStep s)) := houtside ▸ run_alike_of_hazardFree hs hrun
  have ht' : Alike t' (settledRun (outsideEvents es) (engineStep (s.withEvents es))) := run_alike_of_hazardFree hes hrun'
  have hend : Alike t t' := ht.trans ((settledRun_alike (engineStep_alike (withEvents_alike s es)) _).trans ht'.symm)
  exact ⟨hend.sameEngine, hend.otherReads⟩

/-! ### Padding -/

/-- `BE64` has eight bytes (R201). -/
theorem be64_length (x : Nat) : (be64 x).length = 8 := by simp [be64]

/-- `BE64` read back, most significant byte first (R201). -/
theorem foldl_be64 {x : Nat} (hx : x < 2 ^ 64) : (be64 x).foldl (fun y b => 256 * y + b.toNat) 0 = x := by
  simp only [be64, List.range, List.range.loop, List.map_cons, List.map_nil, List.foldl_cons, List.foldl_nil,
    BitVec.toNat_ofNat, Nat.shiftRight_eq_div_pow]
  omega

/-- The zeros fill up the block in which the length ends (R201). -/
theorem padZeros_add (len : Nat) : len + 1 + padZeros len + 8 = 64 * ((len + 8) / 64 + 1) := by
  unfold padZeros
  omega

theorem pad_length (m : List Byte) : (pad m).length = 64 * ((m.length + 8) / 64 + 1) := by
  rw [← padZeros_add]
  simp only [pad, List.length_append, List.length_singleton, List.length_replicate, be64_length]

theorem blocks_length (m : List Byte) : (blocks m).length = (m.length + 8) / 64 + 1 := by
  rw [blocks, List.length_map, List.length_range, pad_length, Nat.mul_div_cancel_left _ (by decide)]

theorem pad_getD_message {m : List Byte} {k : Nat} (hk : k < m.length) : (pad m).getD k 0#8 = m.getD k 0#8 := by
  simp only [pad, List.append_assoc]
  exact List.getD_append _ _ _ _ hk

theorem pad_getD_mark (m : List Byte) : (pad m).getD m.length 0#8 = 0x80#8 := by
  simp only [pad, List.append_assoc]
  rw [List.getD_append_right _ _ _ _ le_rfl, Nat.sub_self]
  rfl

theorem pad_getD_zeros {m : List Byte} {k : Nat} (hlo : m.length < k) (hhi : k + 8 < (pad m).length) :
    (pad m).getD k 0#8 = 0#8 := by
  have hz : k - (m.length + 1) < padZeros m.length := by
    rw [pad_length, ← padZeros_add] at hhi
    omega
  rw [pad, List.getD_append _ _ _ _ (by simp; omega), List.getD_append_right _ _ _ _ (by simp; omega)]
  simp [hz]

/-- The last eight bytes are those of the length (R201). -/
theorem pad_drop (m : List Byte) : (pad m).drop ((pad m).length - 8) = be64 (8 * m.length) := by
  have hlen : (pad m).length - 8 = (m ++ [0x80#8] ++ List.replicate (padZeros m.length) 0#8).length := by
    rw [pad, List.length_append, be64_length, Nat.add_sub_cancel]
  rw [hlen]
  exact List.drop_left

/-- Settles O54: a whole number of blocks, part by part (R201 to R203); below 2^61 bytes the bit length fits its 64 bits (R202). -/
theorem paddingMakesWholeBlocks : Obligations.PaddingMakesWholeBlocks := by
  refine fun m hm => ⟨pad_length m, blocks_length m, fun k => pad_getD_message, pad_getD_mark m, fun k => pad_getD_zeros, ?_⟩
  rw [pad_drop]
  exact foldl_be64 (by omega)

/-! ### The digest procedure -/

/-- The effect of a row whose meaning on this state is known. -/
theorem eventEffect_encode {i : Instr} (hi : i.wellFormed = true) {s t : State} (h : exec i s = .next t) :
    eventEffect (.host (encode i)) s = t :=
  itemEffect_of_exec (decodeEncodeRoundTrip i hi) h

/-! #### The waits -/

theorem eventEffect_rdStatus (s : State) : eventEffect (.host (encode .rdStatus)) s = s.record 0x04#8 4#3 s.status :=
  eventEffect_encode rfl rfl

theorem runEvents_polls_alike (n : Nat) (s : State) : Alike s (runEvents (List.replicate n (.host (encode .rdStatus))) s) := by
  induction n generalizing s with
  | zero => exact Alike.refl s
  | succ n ih =>
    rw [List.replicate_succ, runEvents_cons, eventEffect_rdStatus]
    exact (statusRead_alike s _).trans (ih _)

/-- A wait is an ENGINE step and STATUS reads. -/
theorem runEvents_waitEvents_alike (polls : Nat) (s : State) : Alike (engineStep s) (runEvents (waitEvents polls) s) := by
  rw [waitEvents, runEvents_append, runEvents_cons, runEvents_cons, runEvents_nil, eventEffect_rdStatus]
  exact (engineStep_alike (runEvents_polls_alike polls s)).trans (statusRead_alike _ _)

/-! #### The undisturbed host -/

/-- From the one state to the other no flag has changed and `rs` has been read, STATUS reads apart; nothing is left pending. -/
structure Undisturbed (s t : State) (rs : List ReadRecord) : Prop where
  pend : t.pend = .none
  flag : ∀ f : ErrFlag, t.flag f = s.flag f
  otherReads : t.otherReads = s.otherReads ++ rs

theorem Undisturbed.refl {s : State} (hp : s.pend = .none) : Undisturbed s s [] :=
  ⟨hp, fun _ => rfl, (List.append_nil _).symm⟩

theorem Undisturbed.trans {s t u : State} {rs qs : List ReadRecord} (h : Undisturbed s t rs) (h' : Undisturbed t u qs) :
    Undisturbed s u (rs ++ qs) :=
  ⟨h'.pend, fun f => (h'.flag f).trans (h.flag f), by rw [h'.otherReads, h.otherReads, List.append_assoc]⟩

theorem Undisturbed.trans_alike {s t u : State} {rs : List ReadRecord} (h : Undisturbed s t rs) (h' : Alike t u) :
    Undisturbed s u rs := by
  obtain ⟨-, -, -, -, hpend, -⟩ := h'.sameEngine
  exact ⟨hpend.symm.trans h.pend, fun f => (h'.flag f).trans (h.flag f), h'.otherReads.symm.trans h.otherReads⟩

/-- From an idle state the issue of an operation and the wait after it are the operation, but for STATUS reads. -/
theorem runEvents_operation {i : Instr} {p : Pending} {s : State} (hi : i.wellFormed = true) (hx : exec i s = .next (s.setPend p))
    (polls : Nat) : Undisturbed s (runEvents ([.host (encode i)] ++ waitEvents polls) s) [] ∧
      Alike (engineStep (s.setPend p)) (runEvents ([.host (encode i)] ++ waitEvents polls) s) := by
  have hop : Alike (engineStep (s.setPend p)) (runEvents ([.host (encode i)] ++ waitEvents polls) s) := by
    rw [runEvents_append, runEvents_cons, runEvents_nil, eventEffect_encode hi hx]
    exact runEvents_waitEvents_alike polls _
  have hreads : (engineStep (s.setPend p)).otherReads = s.otherReads ++ [] := by
    rw [State.otherReads, engineStep_reads, List.append_nil]
    rfl
  have hflag (f : ErrFlag) : (engineStep (s.setPend p)).flag f = s.flag f := by
    rw [engineStep_flag]
    cases f <;> rfl
  exact ⟨Undisturbed.trans_alike ⟨engineStep_pend _, hflag, hreads⟩ hop, hop⟩

/-! #### The blocks -/

/-- Writes of MSG in a row store their words in turn. -/
theorem runEvents_wrMsg (b : Vector Word 16) (l : List (Fin 16)) {s : State} (hp : s.pend = .none) :
    runEvents (l.map fun i => .host (encode (.wrMsg i b[i.val]))) s =
      { s with msg := l.foldl (fun msg i => msg.set i.val b[i.val]) s.msg } := by
  induction l generalizing s with
  | nil => rfl
  | cons i l ih =>
    rw [List.map_cons, runEvents_cons, eventEffect_encode rfl (exec_wrMsg_idle i _ hp)]
    exact ih (s := s.setMsg i b[i.val]) hp

/-- A word stored for an index stays, whatever is stored in its turn for the others. -/
theorem foldl_set_getElem (b : Vector Word 16) (l : List (Fin 16)) (msg : Vector Word 16) (j : Fin 16)
    (hj : j ∈ l ∨ msg[j.val] = b[j.val]) : (l.foldl (fun msg i => msg.set i.val b[i.val]) msg)[j.val] = b[j.val] := by
  induction l generalizing msg with
  | nil => exact hj.resolve_left List.not_mem_nil
  | cons i l ih =>
    refine ih _ ?_
    by_cases hij : i = j
    · exact .inr (hij ▸ Vector.getElem_set_self _)
    · refine hj.imp (fun h => (List.mem_cons.mp h).resolve_left (Ne.symm hij)) fun h => ?_
      exact (Vector.getElem_set_ne i.isLt j.isLt fun hv => hij (Fin.ext hv)).trans h

/-- `ldblk` from an idle state leaves the block in MSG (R90). -/
theorem runEvents_loadBlock (b : Vector Word 16) {s : State} (hp : s.pend = .none) :
    runEvents (loadBlock b) s = { s with msg := b } := by
  have hmsg : (List.finRange 16).foldl (fun msg i => msg.set i.val b[i.val]) s.msg = b :=
    Vector.ext fun k hk => foldl_set_getElem b _ s.msg ⟨k, hk⟩ (.inl (List.mem_finRange _))
  rw [loadBlock, runEvents_wrMsg b _ hp, hmsg]

/-- One block is compressed into H (R204 steps 4 and 5). -/
theorem runEvents_blockEvents (polls : Nat) (b : Vector Word 16) {s : State} (hp : s.pend = .none) :
    Undisturbed s (runEvents (blockEvents polls b) s) [] ∧ (runEvents (blockEvents polls b) s).h = compress s.h b := by
  rw [blockEvents, List.append_assoc, runEvents_append, runEvents_loadBlock b hp]
  obtain ⟨-, hissue, -⟩ := compressIssuesAndCompletes
  obtain ⟨hs, hop⟩ := runEvents_operation (i := .compress) (p := .compress) rfl (hissue { s with msg := b } hp) polls
  obtain ⟨hh, -⟩ := hop.sameEngine
  exact ⟨⟨hs.pend, hs.flag, hs.otherReads⟩, hh.symm⟩

/-- The blocks are compressed into H in order (R204 steps 2 to 6, R205). -/
theorem runEvents_blocksEvents (polls : Nat → Nat) (bs : List (Vector Word 16)) {s : State} (hp : s.pend = .none) :
    Undisturbed s (runEvents (blocksEvents polls bs) s) [] ∧ (runEvents (blocksEvents polls bs) s).h = bs.foldl compress s.h := by
  induction bs generalizing polls s with
  | nil => exact ⟨Undisturbed.refl hp, rfl⟩
  | cons b bs ih =>
    obtain ⟨hblock, hh⟩ := runEvents_blockEvents (polls 0) b hp
    obtain ⟨hrest, hh'⟩ := ih (fun k => polls (k + 1)) hblock.pend
    rw [blocksEvents, runEvents_append]
    exact ⟨hblock.trans hrest, by rw [hh', hh, List.foldl_cons]⟩

/-- Step 1 and the wait before the first block leave IV in H (R204). -/
theorem runEvents_startEvents {start : DigestStart} {s : State} (hp : s.pend = .none) (hiv : start = .afterReset → s.h = iv) :
    Undisturbed s (runEvents (startEvents start ++ [.host (encode .rdStatus)]) s) [] ∧
      (runEvents (startEvents start ++ [.host (encode .rdStatus)]) s).h = iv := by
  have hstart : Undisturbed s (runEvents (startEvents start) s) [] ∧ (runEvents (startEvents start) s).h = iv := by
    cases start with
    | afterReset => exact ⟨Undisturbed.refl hp, hiv rfl⟩
    | init =>
      rw [startEvents, runEvents_cons, runEvents_nil,
        eventEffect_encode rfl (exec_of_commandOf_idle (i := .init) (c := .init) rfl hp)]
      exact ⟨⟨hp, fun f => by cases f <;> rfl, (List.append_nil _).symm⟩, rfl⟩
  obtain ⟨hs, hh⟩ := hstart
  rw [runEvents_append, runEvents_cons, runEvents_nil, eventEffect_rdStatus]
  exact ⟨hs.trans_alike (statusRead_alike _ _), hh⟩

/-! #### The words read out -/

/-- The bytes of a packed word, as the host takes them out of it (R64). -/
theorem streamOf_packBE (b0 b1 b2 b3 : Byte) : streamOf [packBE b0 b1 b2 b3] = [b0, b1, b2, b3] := by
  obtain ⟨h0, h1, h2, h3⟩ := packBE_bytes b0 b1 b2 b3
  simp only [streamOf, byteBE, List.flatMap_singleton, h0, h1, h2, h3]

/-- The words packed from the front of a stream give it back (R65, R207). -/
theorem streamOf_blockWords {p : List Byte} {n : Nat} (hn : 4 * n ≤ p.length) :
    streamOf ((List.range n).map (blockWord p 0)) = p.take (4 * n) := by
  induction n with
  | zero => rfl
  | succ n ih =>
    have hword : streamOf [blockWord p 0 n] = (p.drop (4 * n)).take 4 := by
      rw [blockWord, Nat.mul_zero, Nat.zero_add, streamOf_packBE, List.drop_eq_getElem_cons (by omega),
        List.drop_eq_getElem_cons (by omega), List.drop_eq_getElem_cons (by omega), List.drop_eq_getElem_cons (by omega)]
      simp (disch := omega) only [List.getD_eq_getElem, List.take_succ_cons, List.take_zero, Nat.add_assoc]
    calc streamOf ((List.range (n + 1)).map (blockWord p 0))
        = streamOf ((List.range n).map (blockWord p 0)) ++ streamOf [blockWord p 0 n] := by
          simp only [streamOf, List.range_succ, List.map_append, List.flatMap_append, List.map_singleton]
      _ = p.take (4 * n) ++ (p.drop (4 * n)).take 4 := by rw [ih (by omega), hword]
      _ = p.take (4 * (n + 1)) := (List.take_add ..).symm

/-- A word cut from the front of a buffer packs four of its bytes (R64). -/
theorem blockWord_toList {n j : Nat} (v : Vector Byte n) (hj : 4 * j + 3 < n) :
    blockWord v.toList 0 j = packBE v[4 * j] v[4 * j + 1] v[4 * j + 2] v[4 * j + 3] := by
  have hin {k : Nat} (hk : k < n) : v.toList.getD k 0#8 = v[k] := by
    rw [List.getD_eq_getElem _ _ (by simpa using hk), Vector.getElem_toList]
  rw [blockWord, Nat.mul_zero, Nat.zero_add, hin, hin, hin, hin]

/-- Words read by index that are packed from the front of a stream give it back. -/
theorem streamOf_readWords {p : List Byte} {n k : Nat} {f : Fin n → Word} (hf : ∀ j, f j = blockWord p 0 j.val) (hk : k ≤ n)
    (hp : 4 * k ≤ p.length) : streamOf (((List.finRange n).take k).map f) = p.take (4 * k) := by
  have hindex : ((List.finRange n).take k).map Fin.val = List.range k := by
    rw [List.map_take, List.map_coe_finRange_eq_range, List.take_range, Nat.min_eq_left hk]
  rw [← streamOf_blockWords hp, ← hindex, List.map_map]
  exact congrArg streamOf (List.map_congr_left fun j _ => hf j)

/-- Reading the eight words of HASH reads the digest bytes (R189, R205). -/
theorem streamOf_hash (h : Vector Word 8) : streamOf ((List.finRange 8).map fun j => h[j.val]) = (serialize h).toList := by
  have hword (j : Fin 8) : h[j.val] = blockWord (serialize h).toList 0 j.val :=
    (packBE_serialize h j).symm.trans (blockWord_toList (serialize h) (by omega)).symm
  have hall : (serialize h).toList.length = 4 * 8 := Vector.length_toList
  rw [← List.take_of_length_le (l := List.finRange 8) (i := 8) (List.length_finRange).le,
    streamOf_readWords hword le_rfl hall.ge, ← hall, List.take_length]

/-- Reading the words of OUT that hold the characters of a filled buffer reads the characters (R190, R207). -/
theorem streamOf_out {k : Nat} (c : Vector Byte (4 * k)) (hk : k ≤ 16) :
    streamOf (((List.finRange 16).take k).map (outWord (fillOut c.toList))) = c.toList := by
  have hword (n : Fin 16) : outWord (fillOut c.toList) n = blockWord (fillOut c.toList).toList 0 n.val :=
    (blockWord_toList _ (by omega)).symm
  rw [streamOf_readWords hword hk (by rw [Vector.length_toList]; omega)]
  refine List.ext_getElem (by simp; omega) fun i hi hi' => ?_
  rw [Vector.length_toList] at hi'
  rw [List.getElem_take, Vector.getElem_toList, Vector.getElem_toList, fillOut_getElem c hi']

/-- Reads in a row return their words, when no word depends on what has been read before it. -/
theorem runEvents_reads {α : Type} {i : α → Instr} {off : α → BitVec 8} {v : α → Word} {s : State}
    (hi : ∀ a, (i a).wellFormed = true)
    (hx : ∀ a rs, exec (i a) (s.withReads rs) = .next ((s.withReads rs).record (off a) 4#3 (v a))) (l : List α)
    (rs : List ReadRecord) : runEvents (l.map fun a => .host (encode (i a))) (s.withReads rs) =
      s.withReads (rs ++ l.map fun a => ⟨off a, 4#3, v a⟩) := by
  induction l generalizing rs with
  | nil => exact congrArg s.withReads (List.append_nil rs).symm
  | cons a l ih =>
    rw [List.map_cons, runEvents_cons, eventEffect_encode (hi a) (hx a rs)]
    exact (ih (rs ++ [⟨off a, 4#3, v a⟩])).trans (congrArg s.withReads (List.append_assoc ..))

theorem Undisturbed.of_reads {s : State} {rs : List ReadRecord} (hp : s.pend = .none) (hoff : ∀ r ∈ rs, r.off ≠ 0x04#8) :
    Undisturbed s (s.withReads (s.reads ++ rs)) rs := by
  refine ⟨hp, fun f => by cases f <;> rfl, ?_⟩
  have hrs : rs.filter (fun r => !(decide (r.off = 0x04#8) && decide (r.size = 4#3))) = rs :=
    List.filter_eq_self.mpr fun r hr => by simp [hoff r hr]
  exact (List.filter_append ..).trans (congrArg (s.otherReads ++ ·) hrs)

/-- `rdhash` reads the digest bytes of H (R90, R204 step 7). -/
theorem runEvents_hashReads {s : State} (hp : s.pend = .none) : ∃ rs, Undisturbed s (runEvents hashReads s) rs ∧
    (runEvents hashReads s).h = s.h ∧ streamOf (rs.map ReadRecord.value) = (serialize s.h).toList := by
  have hrun : runEvents hashReads s = s.withReads (s.reads ++ (List.finRange 8).map fun j => ⟨hashOff j, 4#3, s.h[j.val]⟩) :=
    runEvents_reads (i := .rdHash) (fun _ => rfl) (fun j rs => congrArg _ (readWhenIdle_idle (s := s.withReads rs) hp)) _ s.reads
  have hoff : ∀ j, hashOff j ≠ 0x04#8 := by decide
  rw [hrun]
  refine ⟨_, Undisturbed.of_reads hp (List.forall_mem_map.mpr fun j _ => hoff j), rfl, ?_⟩
  rw [List.map_map]
  exact streamOf_hash s.h

/-- `rdout` reads the characters that fill the front of the output buffer (R90, R204 step 7). -/
theorem runEvents_outReads {k : Nat} {c : Vector Byte (4 * k)} {s : State} (hk : k ≤ 16) (hp : s.pend = .none)
    (hout : s.outb = fillOut c.toList) : ∃ rs, Undisturbed s (runEvents (outReads k) s) rs ∧
      (runEvents (outReads k) s).h = s.h ∧ streamOf (rs.map ReadRecord.value) = c.toList := by
  have hrun : runEvents (outReads k) s =
      s.withReads (s.reads ++ ((List.finRange 16).take k).map fun n => ⟨outOff n, 4#3, outWord s.outb n⟩) :=
    runEvents_reads (i := .rdOut) (fun _ => rfl) (fun n rs => congrArg _ (readWhenIdle_idle (s := s.withReads rs) hp)) _ s.reads
  have hoff : ∀ n, outOff n ≠ 0x04#8 := by decide
  rw [hrun]
  refine ⟨_, Undisturbed.of_reads hp (List.forall_mem_map.mpr fun n _ => hoff n), rfl, ?_⟩
  rw [List.map_map, hout]
  exact streamOf_out c hk

/-- An ENCODE, its wait and the reads of its characters (R204 step 7, R207). -/
theorem runEvents_encodeReads {i : Instr} {p : Pending} {k : Nat} {c : Vector Byte (4 * k)} {s : State} (hk : k ≤ 16)
    (hi : i.wellFormed = true) (hx : exec i s = .next (s.setPend p)) (hh : (engineStep (s.setPend p)).h = s.h)
    (hout : (engineStep (s.setPend p)).outb = fillOut c.toList) (polls : Nat) :
    ∃ rs, Undisturbed s (runEvents ([.host (encode i)] ++ waitEvents polls ++ outReads k) s) rs ∧
      (runEvents ([.host (encode i)] ++ waitEvents polls ++ outReads k) s).h = s.h ∧
      streamOf (rs.map ReadRecord.value) = c.toList := by
  obtain ⟨hs, hop⟩ := runEvents_operation hi hx polls
  obtain ⟨hop_h, -, hop_out, -⟩ := hop.sameEngine
  obtain ⟨rs, hs', hh', hstream⟩ := runEvents_outReads hk hs.pend (hop_out.symm.trans hout)
  rw [runEvents_append]
  exact ⟨rs, hs.trans hs', hh'.trans (hop_h.symm.trans hh), hstream⟩

/-- Step 7 takes the digest, or its hex or Base64 string, from H and leaves H (R204, R205, R207). -/
theorem runEvents_readoutEvents (readout : Readout) (polls : Nat) {m : List Byte} {s : State} (hp : s.pend = .none)
    (hm : serialize s.h = sha256 m) : ∃ rs, Undisturbed s (runEvents (readoutEvents polls readout) s) rs ∧
      (runEvents (readoutEvents polls readout) s).h = s.h ∧ streamOf (rs.map ReadRecord.value) = digestOutput readout m := by
  obtain ⟨-, -, hissue, -⟩ := encodeIssuesHexAndBase64
  obtain ⟨hhex, hb64⟩ := hissue s hp
  cases readout with
  | hash =>
    obtain ⟨rs, hs, hh, hstream⟩ := runEvents_hashReads hp
    exact ⟨rs, hs, hh, hstream.trans (congrArg Vector.toList hm)⟩
  | hex =>
    have hout : (engineStep (s.setPend .encodeHex)).outb = fillOut (encHex (sha256 m)).toList := by
      rw [← hm, ← hexOutput]
      rfl
    exact runEvents_encodeReads (k := 16) le_rfl rfl hhex rfl hout polls
  | base64 =>
    have hout : (engineStep (s.setPend .encodeB64)).outb = fillOut (encB64 (sha256 m)).toList := by
      rw [← hm, ← b64Output]
      rfl
    exact runEvents_encodeReads (k := 11) (by decide) rfl hb64 rfl hout polls

/-- The seven steps from an idle state (R204, R205). -/
theorem runEvents_digest {start : DigestStart} (readout : Readout) (polls : Nat → Nat) (m : List Byte) {s t : State}
    (hp : s.pend = .none) (hiv : start = .afterReset → s.h = iv)
    (ht : t = runEvents (startEvents start ++ [.host (encode .rdStatus)] ++ blocksEvents polls (blocks m)
      ++ readoutEvents (polls (blocks m).length) readout) s) :
    serialize t.h = sha256 m ∧ ∃ rs, Undisturbed s t rs ∧ streamOf (rs.map ReadRecord.value) = digestOutput readout m := by
  rw [runEvents_append, runEvents_append] at ht
  obtain ⟨hs, hh⟩ := runEvents_startEvents hp hiv
  obtain ⟨hs', hh'⟩ := runEvents_blocksEvents polls (blocks m) hs.pend
  have hdigest := congrArg serialize (hh'.trans (congrArg ((blocks m).foldl compress) hh))
  obtain ⟨rs, hs'', hh'', hstream⟩ := runEvents_readoutEvents readout (polls (blocks m).length) hs'.pend hdigest
  subst ht
  exact ⟨(congrArg serialize hh'').trans hdigest, rs, (hs.trans hs').trans hs'', hstream⟩

/-- Settles O55: step 1 leaves IV in H, the blocks are compressed into it in order, and step 7 reads it out; no step disturbs the
host (R202, R204, R205, R207). -/
theorem digestProcedureComputesTheDigest : Obligations.DigestProcedureComputesTheDigest := by
  intro start readout polls m
  refine ⟨fun hlarge => if_pos (decide_eq_true hlarge), fun hsmall => ⟨_, if_neg ?_, fun s hp hiv he => ?_⟩⟩
  · exact fun hlarge => Nat.not_le.mpr hsmall (of_decide_eq_true hlarge)
  · obtain ⟨hdigest, rs, hs, hstream⟩ := runEvents_digest readout polls m hp hiv rfl
    rw [← he] at hdigest hs ⊢
    exact ⟨(runEvents s.events s).withEvents [], rs, run_add_length s 0, hdigest, hs.pend, rfl,
      fun f => (hs.trans_alike (withEvents_alike _ [])).flag f, hs.otherReads, hstream⟩

end Sys2Proof.Machine

/-! ## Proofs: exceptions (spec/60_exceptions.md) -/

namespace Sys2Proof.Machine

/-! ### The step as a function of the state -/

/-- The state a step leaves: by the ENGINE with no event left, otherwise by the next event (R69, log 3). -/
def nextState (s : State) : State :=
  match s.events with
  | [] => engineStep s
  | e :: es => eventEffect e (s.withEvents es)

theorem nextState_of_nil {s : State} (he : s.events = []) : nextState s = engineStep s := by rw [nextState, he]

theorem nextState_of_cons {s : State} {e : Event} {es : List Event} (he : s.events = e :: es) :
    nextState s = eventEffect e (s.withEvents es) := by rw [nextState, he]

/-- Every step answers, whatever the event and whatever the flags. -/
theorem step_eq_nextState (s : State) : step s = .next (nextState s) := by
  cases he : s.events with
  | nil => rw [step_of_nil he, nextState_of_nil he]
  | cons e es =>
    rw [step_of_cons he, eventStep_eq_eventEffect, nextState_of_cons he]
    rfl

theorem nextState_eq_of_step {s t : State} (hst : step s = .next t) : nextState s = t :=
  Host.Outcome.next.inj ((step_eq_nextState s).symm.trans hst)

/-- Settles O6: the step always answers `nextState` (R220, R224). -/
theorem everyStepAnswersANextState : Obligations.EveryStepAnswersANextState :=
  fun s => ⟨nextState s, step_eq_nextState s⟩

/-! ### Reading a register -/

/-- The word a register shows (R181, R185 to R190). -/
def registerWord : Reg → State → Word
  | .cmd, _ => 0#32
  | .status, s => s.status
  | .id, _ => idValue
  | .msg i, s => s.msg[i.val]
  | .hash j, s => s.h[j.val]
  | .out n, s => outWord s.outb n

theorem msgOff_ge : ∀ i : Fin 16, 0x40#8 ≤ msgOff i := by decide
theorem hashOff_ge : ∀ j : Fin 8, 0x40#8 ≤ hashOff j := by decide
theorem outOff_ge : ∀ n : Fin 16, 0x40#8 ≤ outOff n := by decide

/-- The registers from 0x40 on are read behind the BUSY gate, those below at any time (R61, R181). -/
theorem busAccess_read_register (r : Reg) (s : State) : busAccess .read 4#3 r.off s =
    if 0x40#8 ≤ r.off then readWhenIdle r.off (registerWord r s) s else s.record r.off 4#3 (registerWord r s) := by
  cases r with
  | cmd | status | id => rfl
  | msg i =>
    rw [Reg.off, if_pos (msgOff_ge i)]
    simp only [busAccess, busRead, decodeAccess_msgOff, record_of_gatedRead, registerWord]
  | hash j =>
    rw [Reg.off, if_pos (hashOff_ge j)]
    simp only [busAccess, busRead, decodeAccess_hashOff, record_of_gatedRead, registerWord]
  | out n =>
    rw [Reg.off, if_pos (outOff_ge n)]
    simp only [busAccess, busRead, decodeAccess_outOff, record_of_gatedRead, registerWord]

/-! ### The error flags are not read

Two states differ in their error flags alone when `State.clearErrors` makes them the same; each operation is shown to do the same to a
state and to the state with its flags cleared, the flags and the STATUS words read apart. -/

theorem perform_clearErrors (c : Command) (s : State) : (perform c s.clearErrors).clearErrors = (perform c s).clearErrors := by
  cases c with
  | encode fmt =>
    simp only [perform, encodeIssue]
    split_ifs <;> rfl
  | _ => rfl

theorem whenIdle_clearErrors {f : State → State} {s : State} (hf : (f s.clearErrors).clearErrors = (f s).clearErrors) :
    (whenIdle f s.clearErrors).clearErrors = (whenIdle f s).clearErrors := by
  by_cases hp : s.pend = .none
  · rw [whenIdle_idle hp, whenIdle_idle (s := s.clearErrors) hp, hf]
  · rw [whenIdle_busy hp, whenIdle_busy (s := s.clearErrors) hp]
    rfl

theorem cmdWrite_clearErrors (w : Word) (s : State) : (cmdWrite w s.clearErrors).clearErrors = (cmdWrite w s).clearErrors :=
  whenIdle_clearErrors (perform_clearErrors _ s)

theorem busWrite_clearErrors (off : BitVec 8) (size : BitVec 3) (v : Word) (s : State) :
    (busWrite off size v s.clearErrors).clearErrors = (busWrite off size v s).clearErrors := by
  unfold busWrite
  cases decodeAccess off size with
  | cmd => exact whenIdle_clearErrors (cmdWrite_clearErrors v s)
  | msg i => exact whenIdle_clearErrors rfl
  | _ => rfl

theorem readWhenIdle_clearErrors (off : BitVec 8) (v : Word) (s : State) :
    (readWhenIdle off v s.clearErrors).clearErrors = (readWhenIdle off v s).clearErrors := by
  by_cases hp : s.pend = .none
  · rw [readWhenIdle_idle hp, readWhenIdle_idle (s := s.clearErrors) hp]
    rfl
  · rw [readWhenIdle_busy hp, readWhenIdle_busy (s := s.clearErrors) hp]
    rfl

/-- STATUS alone shows the flags (R26). -/
theorem registerWord_clearErrors (r : Reg) (s : State) : r = .status ∨ registerWord r s.clearErrors = registerWord r s := by
  cases r with
  | status => exact .inl rfl
  | _ => exact .inr rfl

theorem Alike.of_eq {s t : State} (h : s = t) : Alike s t := h ▸ Alike.refl s

theorem busAccess_read_clearErrors (off : BitVec 8) (size : BitVec 3) (s : State) :
    Alike (busAccess .read size off s.clearErrors).clearErrors (busAccess .read size off s).clearErrors := by
  by_cases hbad : decodeAccess off size = .bad
  · rw [busAccess_of_bad hbad, busAccess_of_bad hbad]
    exact Alike.refl _
  · obtain rfl : size = 4#3 := not_not.mp fun hsize => hbad (if_pos (.inl hsize))
    obtain ⟨r, rfl⟩ := register_of_not_bad hbad
    rw [busAccess_read_register, busAccess_read_register]
    obtain rfl | hword := registerWord_clearErrors r s
    · exact record_alike s.clearErrors (.inr rfl)
    · rw [hword]
      split_ifs
      · exact Alike.of_eq (readWhenIdle_clearErrors r.off (registerWord r s) s)
      · exact Alike.refl _

theorem engineStep_clearErrors (s : State) : engineStep s.clearErrors = (engineStep s).clearErrors := by
  obtain ⟨hp, h⟩ | ⟨hp, h⟩ | ⟨hp, h⟩ | ⟨hp, h⟩ := engineStep_cases s <;>
    rw [h] <;> simp only [engineStep, State.clearErrors_pend, hp] <;> rfl

theorem eventEffect_clearErrors (e : Event) (s : State) :
    Alike (eventEffect e s.clearErrors).clearErrors (eventEffect e s).clearErrors := by
  match e with
  | .host (.command w) => exact Alike.of_eq (cmdWrite_clearErrors w s)
  | .host (.access key data) =>
    simp only [eventEffect, itemEffect]
    cases xferOf key data with
    | write v => exact Alike.of_eq (busWrite_clearErrors (keyOff key) (keySize key) v s)
    | read => exact busAccess_read_clearErrors (keyOff key) (keySize key) s
  | .engine =>
    rw [eventEffect, eventEffect, engineStep_clearErrors, State.clearErrors_clearErrors]
    exact Alike.refl _
  | .reset => exact Alike.refl _

theorem nextState_clearErrors (s : State) : Alike (nextState s.clearErrors).clearErrors (nextState s).clearErrors := by
  cases he : s.events with
  | nil =>
    rw [nextState_of_nil he, nextState_of_nil (s := s.clearErrors) he]
    exact eventEffect_clearErrors .engine s
  | cons e es =>
    rw [nextState_of_cons he, nextState_of_cons (s := s.clearErrors) he]
    exact eventEffect_clearErrors e (s.withEvents es)

/-- Settles O32: both states step as the state with the flags cleared does, the flags and the STATUS words read apart, and every step
takes one event off (R27, R224). -/
theorem errorFlagsNeverBlock : Obligations.ErrorFlagsNeverBlock := by
  intro s t a b c d t' hst hst'
  have hevents : t'.events = t.events := (step_events hst').trans (step_events hst).symm
  obtain rfl := nextState_eq_of_step hst
  obtain rfl := nextState_eq_of_step hst'
  have halike := (nextState_clearErrors { s with errAddr := a, errBusy := b, errCmd := c, errFmt := d }).symm.trans
    (nextState_clearErrors s)
  obtain ⟨hh, hmsg, houtb, houtlen, hpend, -⟩ := halike.sameEngine
  exact ⟨hh, hmsg, houtb, houtlen, hpend, hevents, halike.otherReads⟩

/-! ### What an access is refused for -/

/-- The transfer of an access, by its kind and its data word. -/
def transfer (write : Bool) (data : Word) : Xfer := if write then .write data else .read

theorem xferOf_eq_transfer (key : BitVec 12) (data : Word) : xferOf key data = transfer (keyIsWrite key) data := rfl

/-- A refused access raises one flag, and a read records 0 (R220, R222). -/
def State.refuse (e : ErrFlag) (write : Bool) (size : BitVec 3) (off : BitVec 8) (s : State) : State :=
  if write then s.raise e else (s.raise e).record off size 0#32

section
variable {e : ErrFlag} {write : Bool} {size : BitVec 3} {off : BitVec 8} {s : State}

theorem refuse_sameEngine : (s.refuse e write size off).sameEngine (s.raise e) := by
  cases write <;> exact ⟨rfl, rfl, rfl, rfl, rfl, rfl, rfl, rfl, rfl⟩

theorem refuse_reads_of_write (hw : write = true) : (s.refuse e write size off).reads = s.reads := by
  subst hw
  rfl

theorem refuse_reads_of_read (hw : write = false) : (s.refuse e write size off).reads = s.reads ++ [⟨off, size, 0#32⟩] := by
  subst hw
  rfl

theorem badAccess_eq_refuse (data : Word) : badAccess (transfer write data) size off s = s.refuse .addr write size off := by
  cases write <;> rfl

end

/-- The target at a read-only offset is a read-only register, or BAD where the access is malformed (R61, R88). -/
theorem target_of_readOnlyOff : ∀ off : BitVec 8, readOnlyOff off → ∀ size, decodeAccess off size = .bad ∨
    decodeAccess off size = .status ∨ decodeAccess off size = .id ∨ (∃ j, decodeAccess off size = .hash j) ∨
      ∃ n, decodeAccess off size = .out n := by
  unfold readOnlyOff
  decide +kernel

theorem busWrite_of_readOnlyOff {off : BitVec 8} (hoff : readOnlyOff off) (size : BitVec 3) (v : Word) (s : State) :
    busWrite off size v s = s.raise .addr := by
  obtain h | h | h | ⟨j, h⟩ | ⟨n, h⟩ := target_of_readOnlyOff off hoff size <;> simp only [busWrite, h]

/-- An access with a cause of ERR_ADDR is refused with it, busy or not (R184, R191, R192). -/
theorem busAccess_of_addrCause {write : Bool} {size : BitVec 3} {off : BitVec 8} (hac : addrCause write size off) (data : Word)
    (s : State) : busAccess (transfer write data) size off s = s.refuse .addr write size off := by
  have hbad (h : decodeAccess off size = .bad) : busAccess (transfer write data) size off s = s.refuse .addr write size off := by
    rw [busAccess_of_bad h, badAccess_eq_refuse]
  obtain hsize | halign | hmap | ⟨rfl, hro⟩ := hac
  · exact hbad (if_pos (.inl hsize))
  · exact hbad (if_pos (.inr halign))
  · exact hbad (decodeAccess_of_unmappedOff off hmap size)
  · exact busWrite_of_readOnlyOff hro size data s

/-- An aligned offset that the map lists is not BAD (R61, R88). -/
theorem decodeAccess_of_mappedOff : ∀ off : BitVec 8, off.extractLsb' 0 2 = 0#2 → ¬ unmappedOff off →
    decodeAccess off 4#3 ≠ .bad := by
  unfold unmappedOff
  decide +kernel

theorem readOnlyOff_hashOff : ∀ j : Fin 8, readOnlyOff (hashOff j) := by
  unfold readOnlyOff
  decide

theorem readOnlyOff_outOff : ∀ n : Fin 16, readOnlyOff (outOff n) := by
  unfold readOnlyOff
  decide

/-- An access without a cause of ERR_ADDR is of four bytes at a register, and a write is of CMD or of MSG (R61, R221). -/
theorem register_of_no_addrCause {write : Bool} {size : BitVec 3} {off : BitVec 8} (hac : ¬ addrCause write size off) :
    size = 4#3 ∧ ∃ r : Reg, off = r.off ∧ (write = true → r = .cmd ∨ ∃ i, r = .msg i) := by
  simp only [addrCause, not_or, not_and, not_not] at hac
  obtain ⟨hsize, halign, hmap, hro⟩ := hac
  obtain ⟨r, rfl⟩ := register_of_not_bad (decodeAccess_of_mappedOff off halign hmap)
  refine ⟨hsize, r, rfl, fun hw => ?_⟩
  cases r with
  | cmd => exact .inl rfl
  | msg i => exact .inr ⟨i, rfl⟩
  | status => exact absurd (.inl rfl) (hro hw)
  | id => exact absurd (.inr (.inl rfl)) (hro hw)
  | hash j => exact absurd (readOnlyOff_hashOff j) (hro hw)
  | out n => exact absurd (readOnlyOff_outOff n) (hro hw)

/-- What an access leaves, with its reason: refused with ERR_ADDR or ERR_BUSY, in this order, or performed (R120, R180, R181, R221). -/
inductive AccessOutcome (write : Bool) (data : Word) (size : BitVec 3) (off : BitVec 8) (s : State) : State → Prop where
  | addrError (hac : addrCause write size off) : AccessOutcome write data size off s (s.refuse .addr write size off)
  | busyError (hac : ¬ addrCause write size off) (hbc : s.pend ≠ .none ∧ busyCause write off) :
      AccessOutcome write data size off s (s.refuse .busy write size off)
  | command (hac : ¬ addrCause write size off) (hp : s.pend = .none) (hw : write = true) (hoff : off = 0x00#8) :
      AccessOutcome write data size off s (perform (decodeCmd data) s)
  | store (hac : ¬ addrCause write size off) (hp : s.pend = .none) (hw : write = true) (hoff : off ≠ 0x00#8) (i : Fin 16) :
      AccessOutcome write data size off s (s.setMsg i data)
  | read (hac : ¬ addrCause write size off) (hbc : ¬ (s.pend ≠ .none ∧ busyCause write off)) (hw : write = false) (v : Word) :
      AccessOutcome write data size off s (s.record off size v)

/-- An action behind the BUSY gate is refused or performed. -/
theorem whenIdle_outcome {data : Word} {off : BitVec 8} {f : State → State} {s : State} (hac : ¬ addrCause true 4#3 off)
    (hf : s.pend = .none → AccessOutcome true data 4#3 off s (f s)) : AccessOutcome true data 4#3 off s (whenIdle f s) := by
  obtain ⟨hp, h⟩ | ⟨hp, h⟩ := whenIdle_cases f s <;> rw [h]
  · exact hf hp
  · exact .busyError hac ⟨hp, .inl rfl⟩

/-- A read behind the BUSY gate is refused or performed. -/
theorem readWhenIdle_outcome {data v : Word} {off : BitVec 8} {s : State} (hac : ¬ addrCause false 4#3 off) (hoff : 0x40#8 ≤ off) :
    AccessOutcome false data 4#3 off s (readWhenIdle off v s) := by
  by_cases hp : s.pend = .none
  · rw [readWhenIdle_idle hp]
    exact .read hac (fun ⟨hbusy, _⟩ => hbusy hp) rfl v
  · rw [readWhenIdle_busy hp]
    exact .busyError hac ⟨hp, .inr hoff⟩

theorem busAccess_write_cmd (w : Word) (s : State) :
    busAccess (.write w) 4#3 Reg.cmd.off s = whenIdle (perform (decodeCmd w)) s := whenIdle_twice _ s

theorem busAccess_write_msg (i : Fin 16) (v : Word) (s : State) :
    busAccess (.write v) 4#3 (Reg.msg i).off s = whenIdle (State.setMsg i v) s := by
  simp only [Reg.off, busAccess, busWrite, decodeAccess_msgOff]

theorem busAccess_outcome (write : Bool) (data : Word) (size : BitVec 3) (off : BitVec 8) (s : State) :
    AccessOutcome write data size off s (busAccess (transfer write data) size off s) := by
  by_cases hac : addrCause write size off
  · rw [busAccess_of_addrCause hac]
    exact .addrError hac
  · obtain ⟨rfl, r, rfl, hwritable⟩ := register_of_no_addrCause hac
    cases write with
    | true =>
      obtain rfl | ⟨i, rfl⟩ := hwritable rfl
      · rw [transfer, if_pos rfl, busAccess_write_cmd]
        exact whenIdle_outcome hac fun hp => .command hac hp rfl rfl
      · have hoff : ∀ i : Fin 16, msgOff i ≠ 0x00#8 := by decide
        rw [transfer, if_pos rfl, busAccess_write_msg]
        exact whenIdle_outcome hac fun hp => .store hac hp rfl (hoff i) i
    | false =>
      rw [transfer, if_neg Bool.false_ne_true, busAccess_read_register]
      split_ifs with hoff
      · exact readWhenIdle_outcome hac hoff
      · exact .read hac (fun ⟨_, hbusy⟩ => hbusy.elim Bool.false_ne_true hoff) rfl _

/-! ### What an accepted command raises -/

theorem perform_of_illegalWord {w : Word} (hw : illegalWord w) (s : State) : perform (decodeCmd w) s = { s with errCmd := true } := by
  rw [(decodeCmd_illegal_iff w).mpr hw, perform, raise_cmd]

theorem perform_of_badFmtWord {w : Word} (hw : badFmtWord w) (s : State) :
    perform (decodeCmd w) s = { s with errFmt := true, outb := Vector.replicate 64 0#8, outlen := 0#8 } := by
  obtain ⟨hrsv, hop, hfmt⟩ := hw
  have hdecode : decodeCmd w = .encode (w.extractLsb' 4 4) := by
    rw [decodeCmd, if_neg (not_not.mpr hrsv), if_pos hop]
  rw [hdecode, perform, encodeIssue_of_badFmt hfmt]

/-- The words of the other commands raise no flag. -/
theorem flag_of_perform {w : Word} {s : State} {f : ErrFlag} (hi : ¬ illegalWord w) (hf : ¬ badFmtWord w)
    (ht : (perform (decodeCmd w) s).flag f = true) : s.flag f = true := by
  cases hc : decodeCmd w with
  | illegal => exact absurd ((decodeCmd_illegal_iff w).mp hc) hi
  | clrErr =>
    rw [hc] at ht
    cases f <;> cases ht
  | encode fmt =>
    have hfmt : ¬ 2#4 ≤ fmt := fun h => hf (word_of_encode hc ▸ badFmtWord_of_fmt h)
    have hlow : ∀ fmt : BitVec 4, ¬ 2#4 ≤ fmt → fmt = 0#4 ∨ fmt = 1#4 := by decide
    rw [hc] at ht
    obtain rfl | rfl := hlow fmt hfmt <;> exact ht
  | _ =>
    rw [hc] at ht
    exact ht

/-- Settles O30: an access is refused with ERR_ADDR, or with ERR_BUSY, or performed; then only an accepted command can raise a flag
(R165, R220, R221, R222, log 7). -/
theorem oneErrorPerAccessByPriority : Obligations.OneErrorPerAccessByPriority := by
  intro s t key data es he hst
  have ht : (busAccess (transfer (keyIsWrite key) data) (keySize key) (keyOff key) s).withEvents es = t := by
    rw [← nextState_eq_of_step hst, nextState_of_cons he, eventEffect_withEvents, eventEffect, itemEffect, xferOf_eq_transfer]
  have ho := busAccess_outcome (keyIsWrite key) data (keySize key) (keyOff key) s
  subst ht
  generalize busAccess (transfer (keyIsWrite key) data) (keySize key) (keyOff key) s = u at ho
  dsimp only
  cases ho with
  | addrError hac =>
    exact ⟨fun _ => raise_addr s ▸ refuse_sameEngine, fun h => absurd hac h, fun h => absurd hac h, fun h => absurd hac h,
      fun h => absurd hac h, refuse_reads_of_write, fun hw _ => refuse_reads_of_read hw⟩
  | busyError hac hbc =>
    exact ⟨fun h => absurd h hac, fun _ _ => raise_busy s ▸ refuse_sameEngine, fun _ h => absurd hbc h, fun _ h => absurd hbc h,
      fun _ h => absurd hbc h, refuse_reads_of_write, fun hw _ => refuse_reads_of_read hw⟩
  | command hac hp hw hoff =>
    refine ⟨fun h => absurd h hac, fun _ ⟨hbusy, _⟩ => absurd hp hbusy, fun _ _ ⟨_, _, hi⟩ => ?_, fun _ _ _ ⟨_, _, hf⟩ => ?_,
      fun _ _ hi hf f => flag_of_perform (fun h => hi ⟨hw, hoff, h⟩) (fun h => hf ⟨hw, hoff, h⟩),
      fun _ => perform_reads _ s, fun h => absurd hw (Bool.eq_false_iff.mp h)⟩
    · rw [perform_of_illegalWord hi]
      exact ((withEvents_alike _ es).symm).sameEngine
    · rw [perform_of_badFmtWord hf]
      exact ((withEvents_alike _ es).symm).sameEngine
  | store hac hp hw hoff i =>
    exact ⟨fun h => absurd h hac, fun _ ⟨hbusy, _⟩ => absurd hp hbusy, fun _ _ ⟨_, hcmd, _⟩ => absurd hcmd hoff,
      fun _ _ _ ⟨_, hcmd, _⟩ => absurd hcmd hoff, fun _ _ _ _ _ => id, fun _ => rfl, fun h => absurd hw (Bool.eq_false_iff.mp h)⟩
  | read hac hbc hw v =>
    have hnw := Bool.eq_false_iff.mp hw
    exact ⟨fun h => absurd h hac, fun _ h => absurd h hbc, fun _ _ ⟨h, _⟩ => absurd h hnw, fun _ _ _ ⟨h, _⟩ => absurd h hnw,
      fun _ _ _ _ _ => id, fun h => absurd h hnw, fun _ h => absurd h (not_or.mpr ⟨hac, hbc⟩)⟩

end Sys2Proof.Machine

/-! ## Proofs: RESET (spec/70_reset_and_hazards.md) -/

namespace Sys2Proof.Machine

/-- The step of a RESET event is `Reset()` (R240). -/
theorem eventStep_reset (s : State) : eventStep .reset s = .next s.applyReset := rfl

/-- Settles O4: the step takes the RESET off the events, and `Reset()` keeps only the record and the events still to come
(R240, log 1, log 2). -/
theorem resetEventRestoresTheResetState : Obligations.ResetEventRestoresTheResetState := by
  intro s es he
  calc step s = eventStep .reset { s with events := es } := step_of_cons he
    _ = .next (State.applyReset { s with events := es }) := eventStep_reset _
    _ = .next { State.reset with reads := s.reads, events := es } := by rw [State.applyReset]

end Sys2Proof.Machine
